-- ==== Sys2Proof/Word.lean ====
section
/-! DEFINITION. The word types of the block: the octet, the 12-bit dispatch word of rule R96, and the word of a request port
whose width is a parameter. -/

namespace Sys2Proof

/-- An octet. Bit 7 is the most significant (R5, R7, R57). -/
abbrev Byte := BitVec 8

/-- A dispatch word `D = {HP[11], RC[10:9], OP[8], B[7:0]}` (R96). -/
abbrev DWord := BitVec 12

/-- A word of a request port whose width is open (`REQ_SEQ`, `REQ_CTL`: R25, D9). It carries its width. -/
structure PortWord where
  width : Nat
  bits  : BitVec width
  deriving DecidableEq, Repr

/-- The low `w` bits of a number, on a port of `w` bits. -/
def PortWord.ofNat (w n : Nat) : PortWord := ⟨w, BitVec.ofNat w n⟩

/-- The number on a port. -/
def PortWord.toNat (p : PortWord) : Nat := p.bits.toNat

end Sys2Proof
end

