-- ==== Sys2Proof/Config.lean ====
section
/-! DEFINITION. The parameters the spec leaves open (R6), and the free values. A free value has no body, so no proof can see what it
is. The port widths and the two length limits are arguments: the state holds them, and no step changes them. -/

namespace Sys2Proof

/-- The widths of the request ports `REQ_SEQ` and `REQ_CTL` (R6, R25, D9), a parameter that the machine's state holds. D9 has
`ENC_SEQ_W` at least 4 and `ENC_CTL_W` at least 2; the fields are how many bits each port has beyond that, so that every value
of this type is a pair of widths D9 allows, and every such pair is a value of this type (log entry 4). -/
structure PortWidths where
  seqBeyond : Nat
  ctlBeyond : Nat
  deriving DecidableEq, Repr

/-- `ENC_SEQ_W`. -/
def PortWidths.seqW (p : PortWidths) : Nat := 4 + p.seqBeyond

/-- `ENC_CTL_W`. -/
def PortWidths.ctlW (p : PortWidths) : Nat := 2 + p.ctlBeyond

/-- The spec's default for both widths, 8 bits (R6, R25, D9). -/
def Config.defaultPorts : PortWidths := ⟨4, 6⟩

/-- `MAX_FRAME`, the largest number of octets the source may deliver to one DECODE, and `MAX_PAYLOAD`, the largest payload ENCODE
accepts (R6, D17), a parameter that the machine's state holds. The spec gives neither a number; `none` is a limit that is not
given, so that no length is beyond it (log entry 5). -/
structure LengthLimits where
  maxFrame   : Option Nat
  maxPayload : Option Nat
  deriving DecidableEq, Repr

/-- Neither limit is given (DESIGN CHOICE, log entry 5: the spec names no number, 91_not_in_source.md N2). -/
def Config.noLimits : LengthLimits := ⟨none, none⟩

/-- FREE VALUE. The draw behind `SRC_POS_AFTER_FAIL` (R6, D8), for the n-th free draw of a run. The operation that uses it
reduces it into the range D8 gives (log entry 6). -/
opaque Config.freePosition : Nat → Nat

/-- FREE VALUE. Whether the sink took the whole frame of an ENCODE that a reset abandoned (R231), for the n-th free draw of
a run (log entry 7). -/
opaque Config.freeCommit : Nat → Bool

end Sys2Proof
end

