-- ==== Sys2Proof/Syntax.lean ====
section
/-! DEFINITION. The syntax: the closed enumerations of the spec, the TPDU record, a request, a row of the opcode table, and
`Instr`, one constructor for each row of spec/opcode_table.json. -/

namespace Sys2Proof

/-- The four packet kinds, in the order of their codes 0 to 3 (R88; 90_conflicts.md C1). -/
inductive PacketKind where
  | udp   -- unnumbered-data
  | ndp   -- numbered-data
  | ucd   -- unnumbered-control
  | ncd   -- numbered-control
  deriving DecidableEq, Repr

/-- The sixteen service codes, in the order of their codes 0 to 15 (R90). The names are labels: no operation reads one. -/
inductive ServiceCode where
  | groupValueRead
  | groupValueResponse
  | groupValueWrite
  | individualAddrWrite
  | individualAddrRequest
  | individualAddrResponse
  | adcRead
  | adcResponse
  | memoryRead
  | memoryResponse
  | memoryWrite
  | userMessage
  | maskVersionRead
  | maskVersionResponse
  | restart
  | escape
  deriving DecidableEq, Repr

/-- The two operations a request selects: `REQ_OP` 0 and 1 (R1, R25). -/
inductive Op where
  | decode
  | encode
  deriving DecidableEq, Repr, Inhabited

/-- The four endings of an operation (R200). -/
inductive Status where
  | ok
  | truncatedInput
  | dataUnitTooShort
  | ioFailure
  deriving DecidableEq, Repr

/-- The two ways out of the packet-kind multiplexer (R119). -/
inductive Path where
  | control
  | data
  deriving DecidableEq, Repr

/-- The three ways out of the decoder's payload-length router (R121). -/
inductive DecRoute where
  | tooShort
  | short
  | long
  deriving DecidableEq, Repr

/-- The two ways out of the encoder's payload-length router (R122). -/
inductive EncRoute where
  | empty
  | copy
  deriving DecidableEq, Repr

/-- A TPDU record (R39). The sequence number and the control value are numbers, because ENCODE takes them at the width of its
request ports and not of their wire fields (R25, D9). A decoded record is a `Tpdu` too (R93). -/
structure Tpdu where
  kind    : BitVec 2
  seq     : Nat
  ctl     : Nat
  sc      : BitVec 4
  payload : List Byte
  deriving DecidableEq, Repr

/-- What the host puts on the request ports (R25): the operation, and the record that ENCODE packs and DECODE ignores. -/
structure Request where
  op   : Op
  tpdu : Tpdu
  deriving DecidableEq, Repr

/-- A row of the opcode table: it matches `D` when `D & mask = pattern` (R96, R97). -/
structure Row where
  mnemonic : String
  pattern  : DWord
  mask     : DWord
  deriving DecidableEq, Repr

/-- The fifteen forms (R97), one constructor for each row of the opcode table. A DECODE form carries the operand bits of its
dispatch word: SEQ = `D[5:2]`, and `D[1:0]`, which is the control value of a control form and `S_hi` of a data form. The
bits a row marks `x` are no operands. An ENCODE form has no operand bits: its operands are the request registers (R98). -/
inductive Instr where
  | decodeNohdr
  | decodeUcd (seq : BitVec 4) (ctl : BitVec 2)
  | decodeNcd (seq : BitVec 4) (ctl : BitVec 2)
  | decodeUdpNocont (seq : BitVec 4) (scHi : BitVec 2)
  | decodeUdpShort (seq : BitVec 4) (scHi : BitVec 2)
  | decodeUdpLong (seq : BitVec 4) (scHi : BitVec 2)
  | decodeNdpNocont (seq : BitVec 4) (scHi : BitVec 2)
  | decodeNdpShort (seq : BitVec 4) (scHi : BitVec 2)
  | decodeNdpLong (seq : BitVec 4) (scHi : BitVec 2)
  | encodeUcd
  | encodeNcd
  | encodeUdpEmpty
  | encodeUdpPayload
  | encodeNdpEmpty
  | encodeNdpPayload
  deriving DecidableEq, Repr

end Sys2Proof
end

