-- ==== Sys2Proof/WellFormed.lean ====
section
/-! DEFINITION. The checks the spec states on data: `WF` of a TPDU record (R41), and which dispatch words can occur (R96).
An `Instr` needs no check of its own: each operand's type is its field's width, and every value of a field is legal (R94). -/

namespace Sys2Proof

/-- A kind code is a control kind when its bit 1 is set (R89). -/
def isControlKind (k : BitVec 2) : Bool := k.getLsbD 1

/-- R41 (a): the sequence number and the control value are within their wire widths. -/
def Tpdu.fieldsInRange (t : Tpdu) : Bool := decide (t.seq ≤ 15) && decide (t.ctl ≤ 3)

/-- R41 (b): a control record has service code 0 and an empty payload. -/
def Tpdu.controlInactiveZero (t : Tpdu) : Bool :=
  !isControlKind t.kind || (decide (t.sc = 0) && t.payload.isEmpty)

/-- R41 (c): a data record has control 0. -/
def Tpdu.dataInactiveZero (t : Tpdu) : Bool := isControlKind t.kind || decide (t.ctl = 0)

/-- R41 (d): the single byte of a one-byte data payload is at most 63. -/
def Tpdu.shortPayloadInRange (t : Tpdu) : Bool :=
  match t.payload with
  | [b] => isControlKind t.kind || decide (b.toNat ≤ 63)
  | _ => true

/-- `WF(t)` of R41. ENCODE does not check it (R171, R178). -/
def Tpdu.wf (t : Tpdu) : Bool :=
  t.fieldsInRange && t.controlInactiveZero && t.dataInactiveZero && t.shortPayloadInRange

/-- The dispatch words R96's table says can occur.
- DECODE without a header byte: `RC` and `B` carry nothing, so every value of them stands for the one case.
- DECODE with a header byte of a control kind: `RC = 00`.
- DECODE with a header byte of a data kind: `RC` is not `11`.
- ENCODE: `HP = 1` and `RC` is `00` or `01`; `B[5:0]` is don't-care. -/
def DWord.canOccur (d : DWord) : Bool :=
  let hp := d.getLsbD 11
  let rc := d.extractLsb' 9 2
  if d.getLsbD 8 then
    hp && !rc.getLsbD 1
  else if hp then
    if isControlKind (d.extractLsb' 6 2) then decide (rc = 0b00#2) else decide (rc ≠ 0b11#2)
  else
    true

end Sys2Proof
end

