-- ==== Sys2Proof/Decode.lean ====
section
/-! DEFINITION. The code tables (R88, R90, R200, R25), the dispatch word (R96), the opcode table (R97), the decoder from a
dispatch word to an `Instr`, total on all 4096 words and refusing by name, and the encoder. -/

namespace Sys2Proof

/-- The packet-kind codes (R88). -/
def PacketKind.code : PacketKind → BitVec 2
  | .udp => 0b00#2
  | .ndp => 0b01#2
  | .ucd => 0b10#2
  | .ncd => 0b11#2

/-- The kind a 2-bit code stands for: the four codes exhaust the field (R88). -/
def PacketKind.ofCode (k : BitVec 2) : PacketKind :=
  if k = 0b00#2 then .udp
  else if k = 0b01#2 then .ndp
  else if k = 0b10#2 then .ucd
  else .ncd

/-- The numbered kinds (R88): `is_numbered(k) = k[0]` (R89). No operation reads it (R120). -/
def isNumberedKind (k : BitVec 2) : Bool := k.getLsbD 0

/-- The service-code codes (R90). -/
def ServiceCode.code : ServiceCode → BitVec 4
  | .groupValueRead => 0
  | .groupValueResponse => 1
  | .groupValueWrite => 2
  | .individualAddrWrite => 3
  | .individualAddrRequest => 4
  | .individualAddrResponse => 5
  | .adcRead => 6
  | .adcResponse => 7
  | .memoryRead => 8
  | .memoryResponse => 9
  | .memoryWrite => 10
  | .userMessage => 11
  | .maskVersionRead => 12
  | .maskVersionResponse => 13
  | .restart => 14
  | .escape => 15

/-- The operation codes of `REQ_OP` (R25), which are the bit `OP` of the dispatch word (R96). -/
def Op.code : Op → BitVec 1
  | .decode => 0
  | .encode => 1

/-- The status codes of `RES_STATUS` (R200). -/
def Status.code : Status → BitVec 2
  | .ok => 0
  | .truncatedInput => 1
  | .dataUnitTooShort => 2
  | .ioFailure => 3

/-- The dispatch word built from its four fields (R96). -/
def dispatchWord (hp : BitVec 1) (rc : BitVec 2) (op : BitVec 1) (b : Byte) : DWord :=
  hp ++ rc ++ op ++ b

/-- The operand bits SEQ of a DECODE row: `D[5:2]` (R97). -/
def DWord.seq (d : DWord) : BitVec 4 := d.extractLsb' 2 4

/-- The operand bits `c` or `h` of a DECODE row: `D[1:0]` (R97). -/
def DWord.low2 (d : DWord) : BitVec 2 := d.extractLsb' 0 2

/-- The row of the opcode table each form stands in (R97; spec/opcode_table.json). -/
def Instr.row : Instr → Row
  | .decodeNohdr => ⟨"DECODE.NOHDR", 0x000, 0x900⟩
  | .decodeUcd _ _ => ⟨"DECODE.UCD", 0x880, 0x9C0⟩
  | .decodeNcd _ _ => ⟨"DECODE.NCD", 0x8C0, 0x9C0⟩
  | .decodeUdpNocont _ _ => ⟨"DECODE.UDP.NOCONT", 0x800, 0xFC0⟩
  | .decodeUdpShort _ _ => ⟨"DECODE.UDP.SHORT", 0xA00, 0xFC0⟩
  | .decodeUdpLong _ _ => ⟨"DECODE.UDP.LONG", 0xC00, 0xFC0⟩
  | .decodeNdpNocont _ _ => ⟨"DECODE.NDP.NOCONT", 0x840, 0xFC0⟩
  | .decodeNdpShort _ _ => ⟨"DECODE.NDP.SHORT", 0xA40, 0xFC0⟩
  | .decodeNdpLong _ _ => ⟨"DECODE.NDP.LONG", 0xC40, 0xFC0⟩
  | .encodeUcd => ⟨"ENCODE.UCD", 0x980, 0x9C0⟩
  | .encodeNcd => ⟨"ENCODE.NCD", 0x9C0, 0x9C0⟩
  | .encodeUdpEmpty => ⟨"ENCODE.UDP.EMPTY", 0x900, 0xFC0⟩
  | .encodeUdpPayload => ⟨"ENCODE.UDP.PAYLOAD", 0xB00, 0xFC0⟩
  | .encodeNdpEmpty => ⟨"ENCODE.NDP.EMPTY", 0x940, 0xFC0⟩
  | .encodeNdpPayload => ⟨"ENCODE.NDP.PAYLOAD", 0xB40, 0xFC0⟩

/-- The opcode table as a list of rows, in the table's order (R97). -/
def opcodeRows : List Row :=
  [Instr.decodeNohdr, .decodeUcd 0 0, .decodeNcd 0 0, .decodeUdpNocont 0 0, .decodeUdpShort 0 0,
   .decodeUdpLong 0 0, .decodeNdpNocont 0 0, .decodeNdpShort 0 0, .decodeNdpLong 0 0, .encodeUcd,
   .encodeNcd, .encodeUdpEmpty, .encodeUdpPayload, .encodeNdpEmpty, .encodeNdpPayload].map Instr.row

/-- A row matches `D` when `(D & mask) = match` (R96). -/
def Row.matches (r : Row) (d : DWord) : Bool := d &&& r.mask == r.pattern

/-- Why the decoder refuses a word: no row of the table matches it, and R96 says it never occurs. -/
inductive NoRow where
  /-- A DECODE word of a data kind with `RC = 11` (R96: "`11` never occurs"). -/
  | decodeRestClass3
  /-- An ENCODE word with `HP = 0` (R96: `HP` is 1 for ENCODE). -/
  | encodeWithoutHeaderBit
  /-- An ENCODE word of a data kind with `RC = 10` or `11` (R96: they "never occur"). -/
  | encodeRestClass2or3
  deriving DecidableEq, Repr

/-- The decoder: the form whose row of the opcode table matches the word (R96, R97), or the reason that none does. -/
def decode (d : DWord) : Except NoRow Instr :=
  if d &&& 0x900 = 0x000 then .ok .decodeNohdr
  else if d &&& 0x9C0 = 0x880 then .ok (.decodeUcd d.seq d.low2)
  else if d &&& 0x9C0 = 0x8C0 then .ok (.decodeNcd d.seq d.low2)
  else if d &&& 0xFC0 = 0x800 then .ok (.decodeUdpNocont d.seq d.low2)
  else if d &&& 0xFC0 = 0xA00 then .ok (.decodeUdpShort d.seq d.low2)
  else if d &&& 0xFC0 = 0xC00 then .ok (.decodeUdpLong d.seq d.low2)
  else if d &&& 0xFC0 = 0x840 then .ok (.decodeNdpNocont d.seq d.low2)
  else if d &&& 0xFC0 = 0xA40 then .ok (.decodeNdpShort d.seq d.low2)
  else if d &&& 0xFC0 = 0xC40 then .ok (.decodeNdpLong d.seq d.low2)
  else if d &&& 0x9C0 = 0x980 then .ok .encodeUcd
  else if d &&& 0x9C0 = 0x9C0 then .ok .encodeNcd
  else if d &&& 0xFC0 = 0x900 then .ok .encodeUdpEmpty
  else if d &&& 0xFC0 = 0xB00 then .ok .encodeUdpPayload
  else if d &&& 0xFC0 = 0x940 then .ok .encodeNdpEmpty
  else if d &&& 0xFC0 = 0xB40 then .ok .encodeNdpPayload
  else if d &&& 0x100 = 0x000 then .error .decodeRestClass3
  else if d &&& 0x800 = 0x000 then .error .encodeWithoutHeaderBit
  else .error .encodeRestClass2or3

/-- The dispatch word of a form, field by field from R96: the bits R96 fixes for the form, the operand bits, and 0 in every
don't-care bit. -/
def encode : Instr → DWord
  | .decodeNohdr => dispatchWord 0 0b00 0 0
  | .decodeUcd seq ctl => dispatchWord 1 0b00 0 (0b10#2 ++ seq ++ ctl)
  | .decodeNcd seq ctl => dispatchWord 1 0b00 0 (0b11#2 ++ seq ++ ctl)
  | .decodeUdpNocont seq scHi => dispatchWord 1 0b00 0 (0b00#2 ++ seq ++ scHi)
  | .decodeUdpShort seq scHi => dispatchWord 1 0b01 0 (0b00#2 ++ seq ++ scHi)
  | .decodeUdpLong seq scHi => dispatchWord 1 0b10 0 (0b00#2 ++ seq ++ scHi)
  | .decodeNdpNocont seq scHi => dispatchWord 1 0b00 0 (0b01#2 ++ seq ++ scHi)
  | .decodeNdpShort seq scHi => dispatchWord 1 0b01 0 (0b01#2 ++ seq ++ scHi)
  | .decodeNdpLong seq scHi => dispatchWord 1 0b10 0 (0b01#2 ++ seq ++ scHi)
  | .encodeUcd => dispatchWord 1 0b00 1 (0b10#2 ++ 0#6)
  | .encodeNcd => dispatchWord 1 0b00 1 (0b11#2 ++ 0#6)
  | .encodeUdpEmpty => dispatchWord 1 0b00 1 (0b00#2 ++ 0#6)
  | .encodeUdpPayload => dispatchWord 1 0b01 1 (0b00#2 ++ 0#6)
  | .encodeNdpEmpty => dispatchWord 1 0b00 1 (0b01#2 ++ 0#6)
  | .encodeNdpPayload => dispatchWord 1 0b01 1 (0b01#2 ++ 0#6)

/-- The form the decoder reads from a word of the opcode table. A dispatch word is one 12-bit word, the longest there is, so
`nbits` says nothing more; a number that does not fit in 12 bits is no dispatch word. -/
def decodeTableWord (_nbits w : Nat) : Option Instr :=
  if w < 4096 then
    match decode (BitVec.ofNat 12 w) with
    | .ok i => some i
    | .error _ => none
  else none

end Sys2Proof
end

