-- ==== Sys2Proof/Machine/State.lean ====
section
/-! DEFINITION. The state: the registers of the block, its parameters, the octet source and sink it works on, and the
model's own fields (where the operation started, the count of free draws, the host's coming actions). Then the faults, the refusals and the state after reset. -/

namespace Sys2Proof.Machine

/-- A register of the block: the value in it, and whether it HOLDS a value in the spec's sense. The spec says of a register
that holds none that a read of it must fault (R33, R37; log entry 1). -/
structure Latch (α : Type) where
  value : α
  valid : Bool
  deriving DecidableEq, Repr

/-- A register that holds no value: its value part is the zero of its type (DESIGN CHOICE, log entry 1). -/
def Latch.void {α : Type} [Inhabited α] : Latch α := ⟨default, false⟩

/-- A register just written with `v`. -/
def Latch.holding {α : Type} (v : α) : Latch α := ⟨v, true⟩

/-- `PHASE` (R24). -/
inductive Phase where
  | idle
  | busy
  deriving DecidableEq, Repr

/-- The request registers (R25). -/
structure ReqRegs where
  op      : Latch Op
  kind    : Latch (BitVec 2)
  seq     : Latch PortWord
  ctl     : Latch PortWord
  sc      : Latch (BitVec 4)
  payload : Latch (List Byte)
  deriving DecidableEq, Repr

/-- The working latches `HDR`, `CBUF` and `OBUF` (R26, R27, R28). -/
structure WorkRegs where
  hdr  : Latch Byte
  cbuf : Latch (List Byte)
  obuf : Latch (List Byte)
  deriving DecidableEq, Repr

/-- The result registers `RES_STATUS` (R29), the record (R30, R31) and `RES_CONSUMED` (R32). -/
structure ResRegs where
  status   : Latch (BitVec 2)
  kind     : Latch (BitVec 2)
  seq      : Latch (BitVec 4)
  ctl      : Latch (BitVec 2)
  sc       : Latch (BitVec 4)
  payload  : Latch (List Byte)
  consumed : Latch Nat
  deriving DecidableEq, Repr

/-- How the octet source ends after its last octet (R51). -/
inductive SrcTerm where
  | eos     -- `END`: end of stream
  | fail    -- `FAIL`: an I/O error
  | stall   -- `STALL`: it blocks for ever
  deriving DecidableEq, Repr

/-- The octet source (R51, R35). `octets` is all the source delivers since it was attached, `pos` is `SRC_POS`, the octets
already delivered; so `src_bytes` is `octets.drop pos` (log entry 3). -/
structure Source where
  octets : List Byte
  pos    : Nat
  term   : SrcTerm
  deriving DecidableEq, Repr

/-- What the sink answers to a write (R54; a sink that never answers: R237). -/
inductive SinkAnswer where
  | ok
  | fail
  | stall
  deriving DecidableEq, Repr

/-- The octet sink (R36, R54): its content, and the answer it gives to a write. -/
structure Sink where
  content : List Byte
  answer  : SinkAnswer
  deriving DecidableEq, Repr

/-- The result registers the host can read (R29 to R33). -/
inductive ResultReg where
  | status
  | kind
  | seq
  | ctl
  | sc
  | payload
  | consumed
  deriving DecidableEq, Repr

/-- One action of the host, or of another agent (log entry 8). -/
inductive HostEvent where
  /-- Nothing happens outside the block during one step. -/
  | quiet
  /-- A request is presented (R25). -/
  | request (r : Request)
  /-- The host attaches a source, positioned at its first octet (R233 (a), (b)). -/
  | attachSource (octets : List Byte) (term : SrcTerm)
  /-- The host attaches a sink (R233 (a)). -/
  | attachSink (content : List Byte) (answer : SinkAnswer)
  /-- The host chooses how the attached sink answers (R54). -/
  | sinkWillAnswer (answer : SinkAnswer)
  /-- The host reads a result register (R29, R33). -/
  | readResult (r : ResultReg)
  /-- Another agent, or the host itself, takes up to `n` octets from the source (R70, R238, R239). -/
  | takeFromSource (n : Nat)
  /-- Another agent writes `bytes` to the sink (R70, R239). -/
  | writeToSink (bytes : List Byte)
  /-- Reset (R230, R231). -/
  | reset
  deriving DecidableEq, Repr

/-- The names of the registers that can hold no value. -/
inductive RegName where
  | reqOp
  | reqKind
  | reqSeq
  | reqCtl
  | reqSc
  | reqPayload
  | hdr
  | cbuf
  | obuf
  | result (r : ResultReg)
  deriving DecidableEq, Repr

/-- The two internal buffers (R55). -/
inductive Buffer where
  | cbuf
  | obuf
  deriving DecidableEq, Repr

/-- The machine's state. `ports` and `limits` are the parameters of R6 that the machine takes as arguments (log entries 4 and 5).
`opStart`, `draws` and `host` are the model's own: `SRC_POS` when the operation in progress started (log entry 21), how many free draws the run has
made (log entry 6), and the host's coming actions (log entry 8). -/
structure State where
  ports   : PortWidths
  limits  : LengthLimits
  phase   : Phase
  req     : ReqRegs
  work    : WorkRegs
  res     : ResRegs
  src     : Source
  snk     : Sink
  opStart : Nat
  draws   : Nat
  host    : List HostEvent
  deriving DecidableEq, Repr

/-- Why the machine stops with a fault. -/
inductive Fault where
  /-- A read of a register that holds no value. Raised by the register reads of Machine/Ops.lean: for a result register when
  the host reads it (R33, I7, I8), or reads it before the operation has ended (R37), for the others by a
  meaning run on a state that no accepted request leads to. Safe. -/
  | noValue (r : RegName)
  /-- `MemRead` or `MemWrite` at an index outside the buffer, which R55 leaves undefined. Raised by `memRead` and `memWrite`
  of Machine/Ops.lean, and only for a form run on operands of another form; no step reaches it. Safe. -/
  | outsideBuffer (b : Buffer)
  /-- The meaning of `DECODE.NOHDR`, whose operand is a source that delivers no octet (R141), run where a header octet is
  present. Raised by that meaning; no step reaches it. Safe. -/
  | headerPresent
  deriving DecidableEq, Repr

/-- Why the model refuses to go on. -/
inductive Refusal where
  /-- An instruction without a meaning; raised by an arm of `exec`. Safe. -/
  | notModelled (mnemonic : String)
  /-- Another agent reads the source of a BUSY DECODE: "a model refuses it" (R70, I10). Raised by the sequencer. Safe. -/
  | foreignSourceRead
  /-- Another agent writes the sink of a BUSY ENCODE: "a model refuses it" (R70, I10). Raised by the sequencer. Safe. -/
  | foreignSinkWrite
  /-- A DECODE whose source delivers it more octets than `MAX_FRAME`: "A model may refuse longer inputs by name" (D17, I11).
  Raised by the sequencer, only where a limit is given. Safe. -/
  | frameTooLong
  /-- An ENCODE request with a payload longer than `MAX_PAYLOAD` (D17, I11). Raised by the sequencer when the request is
  presented, only where a limit is given. Safe. -/
  | payloadTooLong
  /-- A dispatch word that no row of the opcode table matches (R96). Raised by the sequencer; no step reaches it, because
  such a word is never built. Safe. -/
  | noRow (why : NoRow)
  deriving DecidableEq, Repr

/-- No request register holds a value. Each has its width all the same. -/
def ReqRegs.void (p : PortWidths) : ReqRegs :=
  ⟨.void, .void, ⟨.ofNat p.seqW 0, false⟩, ⟨.ofNat p.ctlW 0, false⟩, .void, .void⟩

/-- No working latch holds a value. -/
def WorkRegs.void : WorkRegs := ⟨.void, .void, .void⟩

/-- No result register holds a value. -/
def ResRegs.void : ResRegs := ⟨.void, .void, .void, .void, .void, .void, .void⟩

/-- A machine with ports of the widths `p` and the length limits `l`, right after reset (R37, R230): `PHASE = IDLE` and no register holds a value (value
parts: log entry 1). The source and the sink are the host's and are not reset; here they are empty, the source ends and the sink
answers (log entry 2). Nothing is requested and no free draw has been made. -/
def State.resetWith (p : PortWidths) (l : LengthLimits) : State :=
  { ports   := p
    limits  := l
    phase   := .idle
    req     := .void p
    work    := .void
    res     := .void
    src     := ⟨[], 0, .eos⟩
    snk     := ⟨[], .ok⟩
    opStart := 0
    draws   := 0
    host    := [] }

/-- The machine right after reset, with ports of the spec's default widths (R6, R25, D9) and no length limit given (log entry 5). -/
def State.reset : State := .resetWith Config.defaultPorts Config.noLimits

end Sys2Proof.Machine
end

