-- ==== Sys2Proof/Machine/Flags.lean ====
section
/-! DEFINITION. The block has no flags (R22). Its only outcome indicator is `RES_STATUS`, and this file says what the result
registers hold after each ending of an operation (R29 to R33, R200, R208). -/

namespace Sys2Proof.Machine

/-- The result registers after an error, and after an ENCODE that ends `OK`: a status and a count, and no record (R33, R208). -/
def ResRegs.noRecord (st : Status) (consumed : Nat) : ResRegs :=
  { ResRegs.void with status := .holding st.code, consumed := .holding consumed }

/-- The result registers after a DECODE that ends `OK` (R30, R31, R32, R140). -/
def ResRegs.decoded (kind : BitVec 2) (seq : BitVec 4) (ctl : BitVec 2) (sc : BitVec 4) (payload : List Byte)
    (consumed : Nat) : ResRegs :=
  { status := .holding Status.ok.code
    kind := .holding kind
    seq := .holding seq
    ctl := .holding ctl
    sc := .holding sc
    payload := .holding payload
    consumed := .holding consumed }

end Sys2Proof.Machine
end

