-- ==== Sys2Proof/Machine/Operands.lean ====
section
/-! DEFINITION. The four combinational sub-blocks (40_fields.md): bit-field extractor, bit-field packer, packet-kind
multiplexer and payload-length router; the request notation (R98, R99); and the frame of a record as one function. -/

namespace Sys2Proof.Machine

/-- `ext_pt(h) = h[7:6]` (R110). -/
def extPt (h : Byte) : BitVec 2 := h.extractLsb' 6 2

/-- `ext_seq(h) = h[5:2]` (R111). -/
def extSeq (h : Byte) : BitVec 4 := h.extractLsb' 2 4

/-- `ext_low2(h) = h[1:0]` (R112). -/
def extLow2 (h : Byte) : BitVec 2 := h.extractLsb' 0 2

/-- `ext_slo(c) = c[7:6]` (R113). -/
def extSlo (c : Byte) : BitVec 2 := c.extractLsb' 6 2

/-- `ext_p6(c) = zext_8(c[5:0])` (R114). -/
def extP6 (c : Byte) : Byte := (c.extractLsb' 0 6).setWidth 8

/-- `join_sc(hi, lo) = {hi, lo}` (R91, R115). -/
def joinSc (hi lo : BitVec 2) : BitVec 4 := hi ++ lo

/-- `pack_header(k, s, l)`, on inputs of any width; bits above each field are dropped (R116, R171). -/
def packHeader {a b c : Nat} (k : BitVec a) (s : BitVec b) (l : BitVec c) : Byte :=
  (k.setWidth 8 &&& 0b11#8) <<< 6 ||| (s.setWidth 8 &&& 0b1111#8) <<< 2 ||| (l.setWidth 8 &&& 0b11#8)

/-- `sc_hi(sc) = sc[3:2]` (R117). -/
def scHi (sc : BitVec 4) : BitVec 2 := sc.extractLsb' 2 2

/-- `sc_lo(sc) = sc[1:0]` (R117). -/
def scLo (sc : BitVec 4) : BitVec 2 := sc.extractLsb' 0 2

/-- `pack_cont(lo, c)`: bits 5:0 of `c` stay, bits 7:6 are overwritten by `lo` (R118). -/
def packCont (lo : BitVec 2) (c : Byte) : Byte := (lo.setWidth 8 &&& 0b11#8) <<< 6 ||| (c &&& 0x3F#8)

/-- `kind_mux(k)` (R119): the only place where a kind code selects a behaviour. -/
def kindMux (k : BitVec 2) : Path :=
  match PacketKind.ofCode k with
  | .udp => .data
  | .ndp => .data
  | .ucd => .control
  | .ncd => .control

/-- `route_dec(n)` (R121). -/
def routeDec (n : Nat) : DecRoute :=
  match n with
  | 0 => .tooShort
  | 1 => .short
  | _ + 2 => .long

/-- `route_enc(L)` (R122). -/
def routeEnc (n : Nat) : EncRoute :=
  match n with
  | 0 => .empty
  | _ + 1 => .copy

/-- The bits `RC` of a DECODE dispatch word, from the router's length class (R96, D13). -/
def restClass : DecRoute → BitVec 2
  | .tooShort => 0b00
  | .short => 0b01
  | .long => 0b10

/-- The bits `RC` of an ENCODE dispatch word, from the payload length (R96). -/
def payloadClass : EncRoute → BitVec 2
  | .empty => 0b00
  | .copy => 0b01

/-- The low 4 bits of a record's sequence number, all that ENCODE uses of it (R171). -/
def seqBits (t : Tpdu) : BitVec 4 := BitVec.ofNat 4 t.seq

/-- The low 2 bits of a record's control value, all that ENCODE uses of it (R171). -/
def ctlBits (t : Tpdu) : BitVec 2 := BitVec.ofNat 2 t.ctl

/-- The frame ENCODE builds in `OBUF` for a record (R80, R92, R170), as one function. The ENCODE forms build it step by step;
this one is for a frame that a reset cut off (R231), where no form has run to its end. -/
def frameOf (t : Tpdu) : List Byte :=
  match kindMux t.kind with
  | .control => [packHeader t.kind (seqBits t) (ctlBits t)]
  | .data =>
    match t.payload with
    | [] => [packHeader t.kind (seqBits t) (scHi t.sc), packCont (scLo t.sc) 0x00]
    | c :: rest => packHeader t.kind (seqBits t) (scHi t.sc) :: packCont (scLo t.sc) c :: rest

/-- The request `DECODE` (R98); the record ports are 0 and DECODE ignores them (R25). -/
def decodeRequest : Request := ⟨.decode, ⟨0, 0, 0, 0, []⟩⟩

/-- The request `ENCODE` of a record (R98). -/
def encodeRequest (t : Tpdu) : Request := ⟨.encode, t⟩

/-- The notation `ENCODE_PADDED` (R99): the same record with one `0x00` before its payload. The block has no such operation. -/
def encodePaddedRequest (t : Tpdu) : Request := encodeRequest { t with payload := 0x00 :: t.payload }

end Sys2Proof.Machine
end

