-- ==== Sys2Proof/Machine/Ops.lean ====
section
/-! DEFINITION. The named operations: register reads, the source and sink primitives (R51 to R54), the buffer accesses (R55),
ending an operation (`raise` and `finish`: R10, R208), the length limits (R6), accepting a request (R24, R25, R34), and reset (R230, R231). -/

namespace Sys2Proof.Machine

/-- What a step of the machine answers. -/
abbrev Result := Host.Outcome State Fault Refusal

/-- Read a register: its value, or a fault when it holds none (R33, R37). -/
def readReg {α : Type} (name : RegName) (r : Latch α) (k : α → Result) : Result :=
  if r.valid then k r.value else .fault (.noValue name)

/-- Whether a result register holds a value (R33). -/
def ResRegs.holds (r : ResRegs) : ResultReg → Bool
  | .status => r.status.valid
  | .kind => r.kind.valid
  | .seq => r.seq.valid
  | .ctl => r.ctl.valid
  | .sc => r.sc.valid
  | .payload => r.payload.valid
  | .consumed => r.consumed.valid

/-- Whether the host can read a result register: it holds a value, and no operation is in progress. The results are the response
to an operation that has ended (R21, R29, R206); before that, R37 gives `RES_STATUS` and `RES_CONSUMED` no value to the host, and
the record has none (R33). In BUSY this makes a difference only for the count that R170 writes before the sink write (DEDUCED, log entry 11). -/
def readable (r : ResultReg) (s : State) : Bool :=
  match s.phase with
  | .idle => s.res.holds r
  | .busy => false

/-! ### The octet source -/

/-- `src_bytes`: what the source will still deliver before its terminator (R51). -/
def srcBytes (s : State) : List Byte := s.src.octets.drop s.src.pos

/-- The source with `n` more octets delivered (R52, R53, R61). -/
def advanceSrc (n : Nat) (s : State) : State := { s with src := { s.src with pos := s.src.pos + n } }

/-- What `SrcRead1` answers (R52). -/
inductive Read1 where
  | byte (b : Byte)
  | eof
  | fail
  | stall
  deriving DecidableEq, Repr

/-- `SrcRead1()` (R52). A `FAIL` leaves `SRC_POS` where it was, the one position of D8's range (R141, R203). -/
def srcRead1 (s : State) : Read1 × State :=
  match srcBytes s with
  | b :: _ => (.byte b, advanceSrc 1 s)
  | [] =>
    match s.src.term with
    | .eos => (.eof, s)
    | .fail => (.fail, s)
    | .stall => (.stall, s)

/-- What `SrcReadRest` answers (R53): all that was left, or a failure after `taken` more octets left the source. -/
inductive ReadRest where
  | bytes (r : List Byte)
  | fail (taken : Nat)
  | stall
  deriving DecidableEq, Repr

/-- The free draw of `SRC_POS_AFTER_FAIL`, as a distance from 0 to `q` (R6, D8; log entry 6). -/
def drawUpTo (q : Nat) (s : State) : Nat := Config.freePosition s.draws % (q + 1)

/-- The state after one free draw. -/
def countDraw (s : State) : State := { s with draws := s.draws + 1 }

/-- `SrcReadRest()` (R53). After a `FAIL` the position is a free draw from where the read started to the last octet the
source holds (D8). -/
def srcReadRest (s : State) : ReadRest × State :=
  match s.src.term with
  | .eos => (.bytes (srcBytes s), advanceSrc (srcBytes s).length s)
  | .fail =>
    let taken := drawUpTo (srcBytes s).length s
    (.fail taken, countDraw (advanceSrc taken s))
  | .stall => (.stall, s)

/-! ### The internal buffers -/

/-- Write `HDR` (R26). -/
def writeHdr (b : Byte) (s : State) : State := { s with work := { s.work with hdr := .holding b } }

/-- Write `CBUF` whole (R27, R55). -/
def writeCbuf (bytes : List Byte) (s : State) : State := { s with work := { s.work with cbuf := .holding bytes } }

/-- Write `OBUF` whole (R28, R55). -/
def writeObuf (bytes : List Byte) (s : State) : State := { s with work := { s.work with obuf := .holding bytes } }

/-- The register of a buffer. -/
def bufferReg (b : Buffer) (s : State) : Latch (List Byte) :=
  match b with
  | .cbuf => s.work.cbuf
  | .obuf => s.work.obuf

/-- The name of a buffer's register. -/
def bufferName : Buffer → RegName
  | .cbuf => .cbuf
  | .obuf => .obuf

/-- `MemRead(B, i, 1)` (R55). -/
def memRead (b : Buffer) (i : Nat) (s : State) (k : Byte → Result) : Result :=
  readReg (bufferName b) (bufferReg b s) fun bytes =>
    match bytes[i]? with
    | some c => k c
    | none => .fault (.outsideBuffer b)

/-- `MemWrite(OBUF, i, 1, v)` (R55). -/
def memWrite (i : Nat) (v : Byte) (s : State) (k : State → Result) : Result :=
  readReg .obuf s.work.obuf fun bytes =>
    if i < bytes.length then k (writeObuf (bytes.set i v) s) else .fault (.outsideBuffer .obuf)

/-- Write `RES_CONSUMED` (R32). -/
def writeConsumed (n : Nat) (s : State) : State := { s with res := { s.res with consumed := .holding n } }

/-! ### Ending an operation -/

/-- The operation ends, with `res` in the result registers: `PHASE <- IDLE` (R24), and `CBUF` and `OBUF`, which live only for
the duration of one operation (R69), hold no value any more. -/
def endOperation (res : ResRegs) (s : State) : State :=
  { s with phase := .idle, work := { s.work with cbuf := .void, obuf := .void }, res := res }

/-- `raise`: the operation ends with an error (R10, R208, R209). This is the block's exception entry: the status, the count,
`PHASE <- IDLE`, no record, and nothing else saved. There is no return from it (R210). -/
def raise (st : Status) (consumed : Nat) (s : State) : Result := .next (endOperation (.noRecord st consumed) s)

/-- `finish OK` of a DECODE, with the record it produced (R10, R140). -/
def finishDecode (kind : BitVec 2) (seq : BitVec 4) (ctl : BitVec 2) (sc : BitVec 4) (payload : List Byte)
    (consumed : Nat) (s : State) : Result :=
  .next (endOperation (.decoded kind seq ctl sc payload consumed) s)

/-- `finish OK` of an ENCODE, which produces no record (R32, R33, R170). -/
def finishEncode (s : State) : Result := .next (endOperation (.noRecord .ok 0) s)

/-- `SinkWriteAll(OBUF)` with the endings of ENCODE after it (R54, R170, R179). A sink that never answers leaves the operation
BUSY, as it is (R237). -/
def sinkWriteAll (s : State) : Result :=
  readReg .obuf s.work.obuf fun frame =>
    match s.snk.answer with
    | .ok => finishEncode { s with snk := { s.snk with content := s.snk.content ++ frame } }
    | .fail => raise .ioFailure 0 s
    | .stall => .next s

/-- The last lines of R170, once `OBUF` is complete: `RES_CONSUMED <- 0`, and then the sink write. So an ENCODE whose sink never
answers has written its count, which the host cannot read before the operation ends (`readable`, R37; log entry 11). -/
def sendFrame (s : State) : Result := sinkWriteAll (writeConsumed 0 s)

/-! ### The steps that several forms share -/

/-- The first lines of R140, up to `HDR <- h`: with an octet, go on with it in `HDR`; without one, end (R141); on a `STALL`,
stay BUSY (R237). A header octet that this operation has already taken is in `HDR`, and is not read twice (R60, R61). -/
def takeHeader (s : State) (k : Byte → State → Result) : Result :=
  if s.work.hdr.valid then k s.work.hdr.value s
  else
    match srcRead1 s with
    | (.byte b, s1) => k b (writeHdr b s1)
    | (.eof, s1) => raise .truncatedInput 0 s1
    | (.fail, s1) => raise .ioFailure 0 s1
    | (.stall, s1) => .next s1

/-- The data path's rest-read (R145): go on with `CBUF`; on a `FAIL`, end with `IoFailure`, the header and the drawn octets
consumed (R203, D8); on a `STALL`, stay BUSY (R237). -/
def takeRest (s : State) (k : List Byte → State → Result) : Result :=
  match srcReadRest s with
  | (.bytes r, s1) => k r (writeCbuf r s1)
  | (.fail taken, s1) => raise .ioFailure (1 + taken) s1
  | (.stall, s1) => .next s1

/-! ### The length limits -/

/-- A length is within a limit, if one is given (R6, D17; log entry 5). -/
def withinLimit (limit : Option Nat) (n : Nat) : Bool :=
  match limit with
  | none => true
  | some m => decide (n ≤ m)

/-- A request is within `MAX_PAYLOAD`, the largest payload ENCODE accepts (R6, R25). DECODE ignores its payload port (R25). -/
def requestFits (l : LengthLimits) (r : Request) : Bool :=
  match r.op with
  | .decode => true
  | .encode => withinLimit l.maxPayload r.tpdu.payload.length

/-- How many octets a source that still delivers `bytes` delivers to the DECODE that starts there: none, the control header
alone (R152), or all of them (R53). -/
def octetsDelivered (bytes : List Byte) : Nat :=
  match bytes with
  | [] => 0
  | h :: rest =>
    match kindMux (extPt h) with
    | .control => 1
    | .data => 1 + rest.length

/-- The operation in progress is within `MAX_FRAME` (R6). A header that has been taken counts (R60). ENCODE reads no source (R59). -/
def frameFits (s : State) : Bool :=
  match s.req.op.value with
  | .encode => true
  | .decode =>
    withinLimit s.limits.maxFrame
      (if s.work.hdr.valid then 1 + (srcBytes s).length else octetsDelivered (srcBytes s))

/-! ### Requests and reset -/

/-- The request registers with `r` latched, on ports of the widths `p` (R25). A port takes as many low bits of a number as it
has (log entry 4). -/
def ReqRegs.latch (p : PortWidths) (r : Request) : ReqRegs :=
  { op := .holding r.op
    kind := .holding r.tpdu.kind
    seq := .holding (.ofNat p.seqW r.tpdu.seq)
    ctl := .holding (.ofNat p.ctlW r.tpdu.ctl)
    sc := .holding r.tpdu.sc
    payload := .holding r.tpdu.payload }

/-- Accept a request (R24, R25): latch it, and let every other register hold no value until the operation writes it (R34). The
model notes where the source stands (log entry 21). -/
def acceptRequest (r : Request) (s : State) : State :=
  { s with phase := .busy, req := .latch s.ports r, work := .void, res := .void, opStart := s.src.pos }

/-- Reset the block (R230): `PHASE = IDLE` and no register holds a value. The source and the sink are the host's (R37). -/
def resetBlock (s : State) : State :=
  { s with phase := .idle, req := .void s.ports, work := .void, res := .void }

/-- The record in the request registers. -/
def latchedTpdu (s : State) : Tpdu :=
  ⟨s.req.kind.value, s.req.seq.value.toNat, s.req.ctl.value.toNat, s.req.sc.value, s.req.payload.value⟩

/-- The sink's content after an ENCODE that was cut off: the whole frame or none of it, by a free draw (R231, R54; log entry 7). -/
def contentAfterAbandon (s : State) : List Byte :=
  match s.req.op.value with
  | .decode => s.snk.content
  | .encode => if Config.freeCommit s.draws then s.snk.content ++ frameOf (latchedTpdu s) else s.snk.content

/-- Reset while BUSY (R231): the operation is abandoned without a status. The source position is a free draw from where the
operation started to the last octet the source holds (D8; log entry 6). -/
def abandonOperation (s : State) : State :=
  let pos := s.opStart + drawUpTo (s.src.octets.length - s.opStart) s
  resetBlock (countDraw
    { s with
      src := { s.src with pos := pos }
      snk := { s.snk with content := contentAfterAbandon s } })

end Sys2Proof.Machine
end

