-- ==== Sys2Proof/Machine/DecodeForms.lean ====
section
/-! DEFINITION. The meanings of the nine DECODE forms (41_decode.md). Each reads the source itself, and runs R140 down the
path of its own row. -/

namespace Sys2Proof.Machine

/-- The CONTROL path of R140 after the header (R142, R143, R144, R152). -/
def decodeControl (kind : BitVec 2) (seq : BitVec 4) (ctl : BitVec 2) (s : State) : Result :=
  takeHeader s fun _ s1 => finishDecode kind seq ctl 0 [] 1 s1

/-- The DATA path with nothing after the header (R145, R150, R151, R202). -/
def decodeNocont (s : State) : Result :=
  takeHeader s fun _ s1 => takeRest s1 fun _ s2 => raise .dataUnitTooShort 1 s2

/-- The DATA path with one octet after the header (R145, R146, R148). -/
def decodeShort (kind : BitVec 2) (seq : BitVec 4) (hi : BitVec 2) (s : State) : Result :=
  takeHeader s fun _ s1 => takeRest s1 fun rest s2 =>
    memRead .cbuf 0 s2 fun c =>
      finishDecode kind seq 0 (joinSc hi (extSlo c)) [extP6 c] (1 + rest.length) s2

/-- The DATA path with two or more octets after the header (R145, R147, R149). -/
def decodeLong (kind : BitVec 2) (seq : BitVec 4) (hi : BitVec 2) (s : State) : Result :=
  takeHeader s fun _ s1 => takeRest s1 fun rest s2 =>
    memRead .cbuf 0 s2 fun c =>
      finishDecode kind seq 0 (joinSc hi (extSlo c)) (rest.drop 1) (1 + rest.length) s2

/-- `DECODE.NOHDR` (R141, R201, R203): the first three lines of R140, on a source that delivers no octet. -/
def execDecodeNohdr (s : State) : Result := takeHeader s fun _ _ => .fault .headerPresent

/-- `DECODE.UCD` (R143). -/
def execDecodeUcd (seq : BitVec 4) (ctl : BitVec 2) (s : State) : Result :=
  decodeControl PacketKind.ucd.code seq ctl s

/-- `DECODE.NCD` (R144). -/
def execDecodeNcd (seq : BitVec 4) (ctl : BitVec 2) (s : State) : Result :=
  decodeControl PacketKind.ncd.code seq ctl s

/-- `DECODE.UDP.NOCONT` (R150). SEQ and S_hi are in no result: the record is void. -/
def execDecodeUdpNocont (s : State) : Result := decodeNocont s

/-- `DECODE.UDP.SHORT` (R146). -/
def execDecodeUdpShort (seq : BitVec 4) (hi : BitVec 2) (s : State) : Result :=
  decodeShort PacketKind.udp.code seq hi s

/-- `DECODE.UDP.LONG` (R147). -/
def execDecodeUdpLong (seq : BitVec 4) (hi : BitVec 2) (s : State) : Result :=
  decodeLong PacketKind.udp.code seq hi s

/-- `DECODE.NDP.NOCONT` (R151). SEQ and S_hi are in no result: the record is void. -/
def execDecodeNdpNocont (s : State) : Result := decodeNocont s

/-- `DECODE.NDP.SHORT` (R148). -/
def execDecodeNdpShort (seq : BitVec 4) (hi : BitVec 2) (s : State) : Result :=
  decodeShort PacketKind.ndp.code seq hi s

/-- `DECODE.NDP.LONG` (R149). -/
def execDecodeNdpLong (seq : BitVec 4) (hi : BitVec 2) (s : State) : Result :=
  decodeLong PacketKind.ndp.code seq hi s

end Sys2Proof.Machine
end

