-- ==== Sys2Proof/Machine/EncodeForms.lean ====
section
/-! DEFINITION. The meanings of the six ENCODE forms (42_encode.md). Each runs R170 down the path of its own row: build the
whole frame in `OBUF`, then one sink write. -/

namespace Sys2Proof.Machine

/-- `HDR <- h; OBUF <- [HDR]`, the start of either path of R170. -/
def startFrame (h : Byte) (s : State) : State := writeObuf [h] (writeHdr h s)

/-- The CONTROL path of R170 (R172, R173): `REQ_SC` and `REQ_PAYLOAD` are not read (R178). -/
def encodeControl (kind : BitVec 2) (s : State) : Result :=
  readReg .reqSeq s.req.seq fun seq => readReg .reqCtl s.req.ctl fun ctl =>
    sendFrame (startFrame (packHeader kind seq.bits ctl.bits) s)

/-- The DATA path of R170 with an empty payload (R174, R176): `REQ_CTL` is not read (R178). -/
def encodeEmpty (kind : BitVec 2) (s : State) : Result :=
  readReg .reqSeq s.req.seq fun seq => readReg .reqSc s.req.sc fun sc =>
    let h := packHeader kind seq.bits (scHi sc)
    sendFrame (writeObuf ([h] ++ [packCont (scLo sc) 0x00]) (startFrame h s))

/-- The DATA path of R170 with a payload (R175, R177): append it, then overwrite the top 2 bits of `OBUF.at(1)` in place. -/
def encodeCopy (kind : BitVec 2) (s : State) : Result :=
  readReg .reqSeq s.req.seq fun seq => readReg .reqSc s.req.sc fun sc =>
    readReg .reqPayload s.req.payload fun payload =>
      let h := packHeader kind seq.bits (scHi sc)
      let s1 := writeObuf ([h] ++ payload) (startFrame h s)
      memRead .obuf 1 s1 fun c => memWrite 1 (packCont (scLo sc) c) s1 sendFrame

/-- `ENCODE.UCD` (R172). -/
def execEncodeUcd (s : State) : Result := encodeControl PacketKind.ucd.code s

/-- `ENCODE.NCD` (R173). -/
def execEncodeNcd (s : State) : Result := encodeControl PacketKind.ncd.code s

/-- `ENCODE.UDP.EMPTY` (R174). -/
def execEncodeUdpEmpty (s : State) : Result := encodeEmpty PacketKind.udp.code s

/-- `ENCODE.UDP.PAYLOAD` (R175). -/
def execEncodeUdpPayload (s : State) : Result := encodeCopy PacketKind.udp.code s

/-- `ENCODE.NDP.EMPTY` (R176). -/
def execEncodeNdpEmpty (s : State) : Result := encodeEmpty PacketKind.ndp.code s

/-- `ENCODE.NDP.PAYLOAD` (R177). -/
def execEncodeNdpPayload (s : State) : Result := encodeCopy PacketKind.ndp.code s

end Sys2Proof.Machine
end

