-- ==== Sys2Proof/Machine/Dispatch.lean ====
section
/-! DEFINITION. One arm for each form of the opcode table. -/

namespace Sys2Proof.Machine

def exec (i : Instr) (s : State) : Host.Outcome State Fault Refusal :=
  match i with
  | .decodeNohdr => Sys2Proof.Machine.execDecodeNohdr s
  | .decodeUcd seq ctl => Sys2Proof.Machine.execDecodeUcd seq ctl s
  | .decodeNcd seq ctl => Sys2Proof.Machine.execDecodeNcd seq ctl s
  | .decodeUdpNocont _ _ => Sys2Proof.Machine.execDecodeUdpNocont s
  | .decodeUdpShort seq hi => Sys2Proof.Machine.execDecodeUdpShort seq hi s
  | .decodeUdpLong seq hi => Sys2Proof.Machine.execDecodeUdpLong seq hi s
  | .decodeNdpNocont _ _ => Sys2Proof.Machine.execDecodeNdpNocont s
  | .decodeNdpShort seq hi => Sys2Proof.Machine.execDecodeNdpShort seq hi s
  | .decodeNdpLong seq hi => Sys2Proof.Machine.execDecodeNdpLong seq hi s
  | .encodeUcd => Sys2Proof.Machine.execEncodeUcd s
  | .encodeNcd => Sys2Proof.Machine.execEncodeNcd s
  | .encodeUdpEmpty => Sys2Proof.Machine.execEncodeUdpEmpty s
  | .encodeUdpPayload => Sys2Proof.Machine.execEncodeUdpPayload s
  | .encodeNdpEmpty => Sys2Proof.Machine.execEncodeNdpEmpty s
  | .encodeNdpPayload => Sys2Proof.Machine.execEncodeNdpPayload s

end Sys2Proof.Machine
end

