-- ==== Sys2Proof/Machine/Fetch.lean ====
section
/-! DEFINITION. The block fetches no instructions (R21, R68); what stands for a fetch is building the dispatch word `D` from the
request and, for DECODE, from what the source delivers (R96). Also the placing of a dispatch word in a state. -/

namespace Sys2Proof.Machine

/-- What building `D` comes to. -/
inductive Fetched where
  /-- The word is complete. -/
  | word (d : DWord)
  /-- A source that blocks for ever never completes it (R96, R237). -/
  | stalled
  /-- A register it needs holds no value; no accepted request leads there. -/
  | noValue (r : RegName)
  deriving DecidableEq, Repr

/-- `D` for DECODE with a header octet: `RC` is `00` for a control kind, whose source is looked at no further, and the length
class of the rest for a data kind, or `00` when the rest-read ends in `FAIL` (R96). -/
def fetchWithHeader (h : Byte) (rest : List Byte) (term : SrcTerm) : Fetched :=
  match kindMux (extPt h) with
  | .control => .word (dispatchWord 1 0b00 Op.decode.code h)
  | .data =>
    match term with
    | .eos => .word (dispatchWord 1 (restClass (routeDec rest.length)) Op.decode.code h)
    | .fail => .word (dispatchWord 1 0b00 Op.decode.code h)
    | .stall => .stalled

/-- `D` for DECODE (R96). The header octet is the next one of the source, or the one in `HDR` if it has been taken. -/
def fetchDecode (s : State) : Fetched :=
  if s.work.hdr.valid then fetchWithHeader s.work.hdr.value (srcBytes s) s.src.term
  else
    match srcBytes s with
    | h :: rest => fetchWithHeader h rest s.src.term
    | [] =>
      match s.src.term with
      | .eos => .word (dispatchWord 0 0b00 Op.decode.code 0)
      | .fail => .word (dispatchWord 0 0b00 Op.decode.code 0)
      | .stall => .stalled

/-- `D` for ENCODE, from `REQ_KIND` and the payload length (R96). -/
def fetchEncode (s : State) : Fetched :=
  if !s.req.kind.valid then .noValue .reqKind
  else if !s.req.payload.valid then .noValue .reqPayload
  else .word (dispatchWord 1 (payloadClass (routeEnc s.req.payload.value.length)) Op.encode.code
    (s.req.kind.value ++ 0#6))

/-- `D` for the operation in progress (R96). -/
def fetch (s : State) : Fetched :=
  if s.req.op.valid then
    match s.req.op.value with
    | .decode => fetchDecode s
    | .encode => fetchEncode s
  else .noValue .reqOp

/-- The octets that make a source present the DECODE word `d`: none without a header; else the header, and as many zero
octets after it as its length class says (R96). -/
def octetsPresenting (d : DWord) : List Byte :=
  let h : Byte := d.extractLsb' 0 8
  if d.getLsbD 11 then
    match kindMux (extPt h) with
    | .control => [h]
    | .data => h :: List.replicate (d.extractLsb' 9 2).toNat 0
  else []

/-- The record that makes an ENCODE request present the word `d`: its kind, every other field 0, and a payload of `RC` zero
octets (R96). -/
def tpduPresenting (d : DWord) : Tpdu :=
  ⟨d.extractLsb' 6 2, 0, 0, 0, List.replicate (d.extractLsb' 9 2).toNat 0⟩

/-- The host's actions with one quiet step before them, unless there are none. -/
def heldBack (host : List HostEvent) : List HostEvent :=
  match host with
  | [] => []
  | _ :: _ => .quiet :: host

/-- Place the dispatch word numbered `w` so that the next step runs its form: the request just accepted, and the source, or
the sink's answer, that goes with it (log entry 8). A number that is no word of the table changes nothing.
DESIGN CHOICE (log entry 8): the request is accepted without the `MAX_PAYLOAD` check that a presented one meets (`requestFits`), so a
word of an ENCODE form with a payload runs with its one octet also where `MAX_PAYLOAD` is 0. A placed DECODE meets the `MAX_FRAME`
check when it runs (`frameFits`). -/
def placeWord (s : State) (w : Nat) : State :=
  match decodeTableWord 16 w with
  | none => s
  | some _ =>
    let d := BitVec.ofNat 12 w
    let s1 := { s with host := heldBack s.host }
    if d.getLsbD 8 then
      acceptRequest (encodeRequest (tpduPresenting d)) { s1 with snk := { s1.snk with answer := .ok } }
    else
      acceptRequest decodeRequest { s1 with src := ⟨octetsPresenting d, 0, .eos⟩ }

end Sys2Proof.Machine
end

