-- ==== Sys2Proof/Machine/Sequencer.lean ====
section
/-! DEFINITION. What one step does, in IDLE and in BUSY. A step takes at most one of the host's actions (log entry 8), and in
BUSY it runs the operation unless that action is a reset, a register read, or another agent's access. -/

namespace Sys2Proof.Machine

/-- The host reads a result register: nothing changes, or the read faults, because the register holds no value (R33, R37) or the
operation that writes it has not ended (R37). -/
def readResult (r : ResultReg) (s : State) : Result :=
  if readable r s then .next s else .fault (.noValue (.result r))

/-- Octets leave the source without the block (R61, R238). -/
def takeFromSource (n : Nat) (s : State) : State := advanceSrc (min n (srcBytes s).length) s

/-- Bytes reach the sink without the block. -/
def writeToSink (bytes : List Byte) (s : State) : State :=
  { s with snk := { s.snk with content := s.snk.content ++ bytes } }

/-- The host presents a request to an IDLE block: it is accepted (R24), or refused by name when it is beyond `MAX_PAYLOAD` (D17,
I11; log entry 5). -/
def presentRequest (r : Request) (s : State) : Result :=
  if requestFits s.limits r then .next (acceptRequest r s) else .refused .payloadTooLong

/-- An action of the host while the block is IDLE. -/
def idleEvent (e : HostEvent) (s : State) : Result :=
  match e with
  | .quiet => .next s
  | .request r => presentRequest r s
  | .attachSource octets term => .next { s with src := ⟨octets, 0, term⟩ }
  | .attachSink content answer => .next { s with snk := ⟨content, answer⟩ }
  | .sinkWillAnswer answer => .next { s with snk := { s.snk with answer := answer } }
  | .readResult r => readResult r s
  | .takeFromSource n => .next (takeFromSource n s)
  | .writeToSink bytes => .next (writeToSink bytes s)
  | .reset => .next (resetBlock s)

/-- A step in IDLE: the host's next action, or nothing at all. -/
def idleStep (s : State) : Result :=
  match s.host with
  | [] => .next s
  | e :: later => idleEvent e { s with host := later }

/-- A DECODE whose source blocks for ever: it has taken the header octet if there was one, and it stays BUSY (R237). -/
def stallDecode (s : State) : Result := takeHeader s fun _ s1 => .next s1

/-- Run the operation in progress: build `D`, decode it, and run the form (R96). -/
def runOperation (s : State) : Result :=
  match fetch s with
  | .word d =>
    match decode d with
    | .ok i => exec i s
    | .error why => .refused (.noRow why)
  | .stalled => stallDecode s
  | .noValue r => .fault (.noValue r)

/-- Run the operation in progress, or refuse it by name when its source delivers it more octets than `MAX_FRAME` (D17, I11; log
entry 5). -/
def runWithinLimit (s : State) : Result := if frameFits s then runOperation s else .refused .frameTooLong

/-- Another agent reads the source while the block is BUSY: refused during a DECODE (R70), harmless during an ENCODE. -/
def busyTakeFromSource (n : Nat) (s : State) : Result :=
  readReg .reqOp s.req.op fun op =>
    match op with
    | .decode => .refused .foreignSourceRead
    | .encode => .next (takeFromSource n s)

/-- Another agent writes the sink while the block is BUSY: refused during an ENCODE (R70), harmless during a DECODE. -/
def busyWriteToSink (bytes : List Byte) (s : State) : Result :=
  readReg .reqOp s.req.op fun op =>
    match op with
    | .decode => .next (writeToSink bytes s)
    | .encode => .refused .foreignSinkWrite

/-- A step in BUSY. A request, and an attachment, which the host makes between operations (R233), wait: the host holds them
until `PHASE = IDLE` (R24, R214).
DESIGN CHOICE (log entry 20): the list `host` is the order in which the actions take effect, so what stands behind a waiting
action waits too, a reset among it. A reset that comes while a request waits stands before the request in the list; one that
stands behind it comes after that request's turn, which on an operation that hangs never is. -/
def busyStep (s : State) : Result :=
  match s.host with
  | [] => runWithinLimit s
  | .quiet :: later => runWithinLimit { s with host := later }
  | .request _ :: _ => runWithinLimit s
  | .attachSource _ _ :: _ => runWithinLimit s
  | .attachSink _ _ :: _ => runWithinLimit s
  | .sinkWillAnswer _ :: _ => runWithinLimit s
  | .readResult r :: later => readResult r { s with host := later }
  | .takeFromSource n :: later => busyTakeFromSource n { s with host := later }
  | .writeToSink bytes :: later => busyWriteToSink bytes { s with host := later }
  | .reset :: later => .next (abandonOperation { s with host := later })

/-- One step of the machine (R24). -/
def sequence (s : State) : Result :=
  match s.phase with
  | .idle => idleStep s
  | .busy => busyStep s

end Sys2Proof.Machine
end

