-- ==== Sys2Proof/Machine/Step.lean ====
section
/-! DEFINITION. The step, and the placing of a word where the next step runs it. Both only call Machine/Sequencer.lean and
Machine/Fetch.lean. -/

namespace Sys2Proof.Machine

/-- One step: a next state, a fault or a refusal. -/
def step (s : State) : Host.Outcome State Fault Refusal := sequence s

/-- `s` with the dispatch word `w` presented, so that the next step runs its form. A dispatch word is one 12-bit word, so
`nbits` says nothing more (log entry 8). -/
def State.withFetchWord (s : State) (_nbits w : Nat) : State := placeWord s w

end Sys2Proof.Machine
end

