-- ==== Sys2Proof/Safety.lean ====
section
/-! DEFINITION. The terms statements are made in: runs of several steps, the invariant of the machine, the decoded record,
and the encode/decode relations of 42_encode.md section 5. -/

namespace Sys2Proof

/-- `norm(t)` (R185). -/
def Tpdu.norm (t : Tpdu) : Tpdu :=
  { kind := t.kind
    seq := t.seq % 16
    ctl := if isControlKind t.kind then t.ctl % 4 else 0
    sc := if isControlKind t.kind then 0 else t.sc
    payload :=
      if isControlKind t.kind then []
      else
        match t.payload with
        | [] => [0x00]
        | [b] => [b &&& 0x3F]
        | _ :: rest => rest }

/-- Two records agree on every bit ENCODE uses (R171, R178). -/
def Tpdu.sameUsedBits (t u : Tpdu) : Prop :=
  t.kind = u.kind ∧ t.seq % 16 = u.seq % 16 ∧
  (isControlKind t.kind → t.ctl % 4 = u.ctl % 4) ∧
  (isControlKind t.kind = false → t.sc = u.sc ∧ t.payload.length = u.payload.length ∧
    t.payload.drop 1 = u.payload.drop 1 ∧ (t.payload.head?.map (· &&& 0x3F)) = (u.payload.head?.map (· &&& 0x3F)))

end Sys2Proof

namespace Sys2Proof.Machine

/-- `n` steps, stopping at the first fault or refusal. -/
def runSteps : Nat → State → Result
  | 0, s => .next s
  | n + 1, s =>
    match step s with
    | .next t => runSteps n t
    | .fault f => .fault f
    | .refused r => .refused r

/-- Every request register holds a value, as accepting a request leaves them (R25). -/
def ReqRegs.latched (r : ReqRegs) : Prop :=
  r.op.valid ∧ r.kind.valid ∧ r.seq.valid ∧ r.ctl.valid ∧ r.sc.valid ∧ r.payload.valid

/-- Some register of the decoded record holds a value (R33). -/
def ResRegs.recordSomewhere (r : ResRegs) : Prop :=
  r.kind.valid ∨ r.seq.valid ∨ r.ctl.valid ∨ r.sc.valid ∨ r.payload.valid

/-- Every register of the decoded record holds a value (R33). -/
def ResRegs.recordComplete (r : ResRegs) : Prop :=
  r.kind.valid ∧ r.seq.valid ∧ r.ctl.valid ∧ r.sc.valid ∧ r.payload.valid

/-- What R42 says of a decoded record: conditions (b) and (c) of R41, and a data record's payload is not empty. (Condition (a)
is the width of the registers.) -/
def ResRegs.recordShape (r : ResRegs) : Prop :=
  (isControlKind r.kind.value → r.sc.value = 0 ∧ r.payload.value = []) ∧
  (isControlKind r.kind.value = false → r.ctl.value = 0 ∧ r.payload.value ≠ [])

/-- The machine's invariant: reset has it, and every step keeps it. -/
structure MachineInv (s : State) : Prop where
  /-- While BUSY the request is latched (R25). -/
  busyRequest : s.phase = .busy → s.req.latched
  /-- While BUSY no result is there yet: no status and no record (R29, R33, R34). -/
  busyNoResult : s.phase = .busy → s.res.status.valid = false ∧ ¬ s.res.recordSomewhere
  /-- While BUSY a count is there only in an ENCODE that has its frame and hangs at its sink, and it is 0 (R32, R34, R170; log
  entry 11). -/
  busyCount : s.phase = .busy → s.res.consumed.valid →
    s.req.op.value = .encode ∧ s.work.obuf.valid ∧ s.res.consumed = .holding 0
  /-- A record is there only after a DECODE that ended `OK`, and then it is whole (R33). -/
  recordAfterDecodeOk : s.res.recordSomewhere →
    s.res.recordComplete ∧ s.res.status = .holding Status.ok.code ∧ s.req.op = .holding .decode
  /-- A decoded record has the shape of R42. -/
  recordShape : s.res.recordSomewhere → s.res.recordShape
  /-- `REQ_SEQ` and `REQ_CTL` have the widths of their ports (R25, D9). -/
  portWidths : s.req.seq.value.width = s.ports.seqW ∧ s.req.ctl.value.width = s.ports.ctlW
  /-- `CBUF` and `OBUF` hold a value only during an operation (R69). -/
  idleBuffersVoid : s.phase = .idle → s.work.cbuf.valid = false ∧ s.work.obuf.valid = false
  /-- A status never comes without the count (R200, R208). -/
  statusWithCount : s.res.status.valid → s.res.consumed.valid
  /-- `SRC_POS` is inside the source (R51, R52, D8). -/
  posInSource : s.src.pos ≤ s.src.octets.length
  /-- The source has not moved back since the operation started (R61). -/
  startBehindPos : s.phase = .busy → s.opStart ≤ s.src.pos
  /-- A DECODE that has taken no header has not moved the source (R52, R61, R70). -/
  headerAhead : s.phase = .busy → s.req.op.value = .decode → s.work.hdr.valid = false → s.src.pos = s.opStart
  /-- A DECODE that has taken its header and is still BUSY hangs on the rest-read (R60, R237): it has taken one octet, which is
  the header, its kind is a data kind, and the source never ends. -/
  headerTaken : s.phase = .busy → s.req.op.value = .decode → s.work.hdr.valid →
    s.src.pos = s.opStart + 1 ∧ s.src.octets[s.opStart]? = some s.work.hdr.value ∧
    kindMux (extPt s.work.hdr.value) = .data ∧ s.src.term = .stall
  /-- A latched ENCODE request is within `MAX_PAYLOAD` (R6, R25). -/
  payloadInLimit : s.req.op = .holding .encode → withinLimit s.limits.maxPayload s.req.payload.value.length
  /-- `OBUF` has length 1 to `1 + MAX_PAYLOAD` (R28), or the 2 octets of an empty data payload (R174, R176), which are more than
  that when `MAX_PAYLOAD` is 0 (log entry 5). -/
  obufInLimit : s.work.obuf.valid → s.work.obuf.value ≠ [] ∧
    (s.work.obuf.value.length ≤ 2 ∨ withinLimit s.limits.maxPayload (s.work.obuf.value.length - 1))

/-- What a step answers, but with the length limits `l` in the state it answers. -/
def underLimits (l : LengthLimits) : Result → Result
  | .next t => .next { t with limits := l }
  | .fault f => .fault f
  | .refused why => .refused why

/-- The decoded record, when every register of it holds a value; its fields as numbers, which is what zero-extending keeps (R93). -/
def ResRegs.record (r : ResRegs) : Option Tpdu :=
  if r.kind.valid && r.seq.valid && r.ctl.valid && r.sc.valid && r.payload.valid then
    some ⟨r.kind.value, r.seq.value.toNat, r.ctl.value.toNat, r.sc.value, r.payload.value⟩
  else none

/-- The host lets the operation run in this step: its next action is no reset, no register read and no access of another
agent. -/
def HostLetsRun (s : State) : Prop :=
  match s.host with
  | [] => True
  | e :: _ =>
    match e with
    | .quiet | .request _ | .attachSource _ _ | .attachSink _ _ | .sinkWillAnswer _ => True
    | .readResult _ | .takeFromSource _ | .writeToSink _ | .reset => False

/-- A DECODE that is about to make its header read, from a source that delivers `h` and then `rest` before its terminator. -/
def HeaderAhead (s : State) (h : Byte) (rest : List Byte) : Prop :=
  s.work.hdr.valid = false ∧ srcBytes s = h :: rest

/-- The state presents the form `i`: its dispatch word is complete, and decodes to `i` (R96). -/
def Presents (s : State) (i : Instr) : Prop := ∃ d, fetch s = .word d ∧ decode d = .ok i

/-- The state after a DECODE's header read took the octet `h` (R52, R140). -/
def afterHeader (h : Byte) (s : State) : State :=
  { s with
    work := { s.work with hdr := .holding h }
    src := { s.src with pos := s.src.pos + 1 } }

/-- The form `i` of ENCODE runs on `s`: it puts `h` into `HDR` and `frame` into `OBUF`, writes 0 into `RES_CONSUMED`, and makes one
sink write of `OBUF` (`sendFrame`; R170, R179).
- The sink answers `OK`: the frame is appended, and the operation ends `OK`.
- It answers `FAIL`: nothing is appended, and the operation ends with `IoFailure`.
Either ending leaves `CBUF` and `OBUF` without a value (R69). What a sink that never answers leaves is no part of this:
`Obligations.EncodeHangsAtItsSink` is about that. -/
def EncodeRuns (i : Instr) (s : State) (h : Byte) (frame : List Byte) : Prop :=
  exec i s = sendFrame { s with work := { s.work with hdr := .holding h, obuf := .holding frame } } ∧
  (s.snk.answer = .ok →
    exec i s = .next { s with
      phase := .idle
      work := ⟨.holding h, .void, .void⟩
      res := ⟨.holding 0, .void, .void, .void, .void, .void, .holding 0⟩
      snk := { s.snk with content := s.snk.content ++ frame } }) ∧
  (s.snk.answer = .fail →
    exec i s = .next { s with
      phase := .idle
      work := ⟨.holding h, .void, .void⟩
      res := ⟨.holding 3, .void, .void, .void, .void, .void, .holding 0⟩ })

/-- `encode(t) = frame` (R182 to R187): on every IDLE block whose sink answers `OK`, the request `ENCODE t` ends `OK` and
appends exactly `frame` to the sink. The block's `MAX_PAYLOAD`, if given, is any that admits the request (R6). -/
def EncodesTo (t : Tpdu) (frame : List Byte) : Prop :=
  ∀ s : State, s.phase = .idle → s.host = [.request (encodeRequest t)] → s.snk.answer = .ok →
    requestFits s.limits (encodeRequest t) = true →
    ∃ s', runSteps 2 s = .next s' ∧ s'.phase = .idle ∧ s'.res.status = .holding Status.ok.code ∧
      s'.snk.content = s.snk.content ++ frame

/-- `decode(frame) = t` (R182 to R187), consuming `n` octets: on every IDLE block whose source delivers exactly `frame` and
then `END`, the request `DECODE` ends `OK` with the record `t`. The block's `MAX_FRAME`, if given, is any that admits `frame` (R6). -/
def DecodesTo (frame : List Byte) (t : Tpdu) (n : Nat) : Prop :=
  ∀ s : State, s.phase = .idle → s.host = [.request decodeRequest] → srcBytes s = frame → s.src.term = .eos →
    withinLimit s.limits.maxFrame frame.length = true →
    ∃ s', runSteps 2 s = .next s' ∧ s'.phase = .idle ∧ s'.res.status = .holding Status.ok.code ∧
      s'.res.record = some t ∧ s'.res.consumed = .holding n

end Sys2Proof.Machine
end

