-- ==== Sys2Proof/Certificates/Slice0/Obligations.lean ====
section
/-! DEFINITION. The statements for the provers. Each docstring says which rule of spec/ it formalises. Numeric kind codes rest on
the spec's decision D1, numeric status codes on D5, and the dispatch word on D13 (92_eei_decisions.md). A
statement that a source which fails gives `IoFailure` rests on D6, and the position it leaves on D8. -/

open Sys2Proof Sys2Proof.Machine

/-! ### The four sub-blocks (40_fields.md) -/

/-- R110 to R115: the extractor's shift-and-mask formulas, each beside its field of bits. -/
def Obligations.ExtractorTakesFields : Prop :=
  ∀ (h : Byte) (hi lo : BitVec 2),
    ((extPt h).setWidth 8 = (h >>> 6) &&& 0b11 ∧ extPt h = h.extractLsb' 6 2) ∧
    ((extSeq h).setWidth 8 = (h >>> 2) &&& 0b1111 ∧ extSeq h = h.extractLsb' 2 4) ∧
    ((extLow2 h).setWidth 8 = h &&& 0b11 ∧ extLow2 h = h.extractLsb' 0 2) ∧
    ((extSlo h).setWidth 8 = (h >>> 6) &&& 0b11 ∧ extSlo h = h.extractLsb' 6 2) ∧
    (extP6 h = h &&& 0x3F ∧ extP6 h = (h.extractLsb' 0 6).setWidth 8 ∧ (extP6 h).extractLsb' 6 2 = 0) ∧
    (joinSc hi lo = (hi.setWidth 4 <<< 2) ||| lo.setWidth 4 ∧ joinSc hi lo = hi ++ lo)

/-- R116 and R118: what the packer puts into its bytes, as numbers. The header's inputs have any width, and bits above each
field are dropped. The formulas of `sc_hi` and `sc_lo` (40_fields.md section 2) stand beside them. -/
def Obligations.PackerMasksAndPlacesFields : Prop :=
  (∀ (a b c : Nat) (k : BitVec a) (s : BitVec b) (l : BitVec c),
    (packHeader k s l).toNat = k.toNat % 4 * 64 + s.toNat % 16 * 4 + l.toNat % 4) ∧
  (∀ sc : BitVec 4, (scHi sc).toNat = sc.toNat / 4 ∧ (scLo sc).toNat = sc.toNat % 4) ∧
  (∀ (lo : BitVec 2) (c : Byte), (packCont lo c).toNat = lo.toNat * 64 + c.toNat % 64)

/-- R123 (a) to (h): no bit is dropped or moved between extractor and packer. The rule is the spec's own derivation. -/
def Obligations.ExtractorInvertsPacker : Prop :=
  (∀ (a b c : Nat) (k : BitVec a) (s : BitVec b) (l : BitVec c),
    extPt (packHeader k s l) = k.setWidth 2 ∧ extSeq (packHeader k s l) = s.setWidth 4 ∧
    extLow2 (packHeader k s l) = l.setWidth 2) ∧
  (∀ (lo : BitVec 2) (c : Byte), extSlo (packCont lo c) = lo ∧ extP6 (packCont lo c) = c &&& 0x3F) ∧
  (∀ h : Byte, packHeader (extPt h) (extSeq h) (extLow2 h) = h) ∧
  (∀ c : Byte, packCont (extSlo c) c = c) ∧
  (∀ sc : BitVec 4, joinSc (scHi sc) (scLo sc) = sc)

/-- R119's table, its equality with bit 1 of the kind code, and R120: bit 0 of the kind code selects no path. R121 and R122: the
routers at every length. -/
def Obligations.MultiplexerAndRoutersFollowTables : Prop :=
  (kindMux 0b00 = .data ∧ kindMux 0b01 = .data ∧ kindMux 0b10 = .control ∧ kindMux 0b11 = .control) ∧
  (∀ k : BitVec 2, (kindMux k = .control ↔ k.getLsbD 1 = true) ∧ kindMux (k ^^^ 1) = kindMux k) ∧
  (∀ n : Nat, (routeDec n = .tooShort ↔ n = 0) ∧ (routeDec n = .short ↔ n = 1) ∧ (routeDec n = .long ↔ 2 ≤ n)) ∧
  (∀ n : Nat, (routeEnc n = .empty ↔ n = 0) ∧ (routeEnc n = .copy ↔ 1 ≤ n))

/-! ### The dispatch word and the opcode table (R96, R97) -/

/-- R97: words written out bit by bit from the operation map, each beside the form it stands for. -/
def Obligations.SpecWordsDecodeToTheirForms : Prop :=
  decode 0b000000000000 = .ok .decodeNohdr ∧
  decode 0b100010000010 = .ok (.decodeUcd 0 2) ∧
  decode 0b100011010110 = .ok (.decodeNcd 5 2) ∧
  decode 0b100000000000 = .ok (.decodeUdpNocont 0 0) ∧
  decode 0b101001110101 = .ok (.decodeNdpShort 13 1) ∧
  decode 0b110000000011 = .ok (.decodeUdpLong 0 3) ∧
  decode 0b101110000000 = .ok .encodeUcd ∧
  decode 0b100100000000 = .ok .encodeUdpEmpty ∧
  decode 0b101101000000 = .ok .encodeNdpPayload

/-- R96: exactly one row of the opcode table matches a word that can occur, and the decoder gives a form of that row. -/
def Obligations.ExactlyOneRowMatchesEachWord : Prop :=
  ∀ d : DWord, d.canOccur = true →
    ∃ i, decode d = .ok i ∧ i.row ∈ opcodeRows ∧ i.row.matches d = true ∧
      ∀ r ∈ opcodeRows, r.matches d = true → r = i.row

/-- The decoder accepts a word if and only if some row of the opcode table matches it (R96, R97): no reserved word falls through
to a neighbour. -/
def Obligations.DecoderAcceptsExactlyTheTable : Prop :=
  ∀ d : DWord, (∃ i, decode d = .ok i) ↔ ∃ r ∈ opcodeRows, r.matches d = true

/-- Decoding the word of a form gives the form back, with every operand at every value. -/
def Obligations.DecodeOfEncodeIsIdentity : Prop :=
  ∀ i : Instr, decode (encode i) = .ok i

/-- The other direction: the word of the form a word decodes to agrees with it on every bit that the row does not mark `x`: the
bits of the mask, and `D[5:0]` for a DECODE form with a header. -/
def Obligations.EncodeOfDecodeKeepsEveryMeaningfulBit : Prop :=
  ∀ (d : DWord) (i : Instr), decode d = .ok i →
    encode i &&& i.row.mask = d &&& i.row.mask ∧
    (d.getLsbD 8 = false → d.getLsbD 11 = true → encode i &&& 0x03F = d &&& 0x03F)

/-- R96's table, on a DECODE that starts and on an ENCODE: the word built, field by field. A source that blocks for ever before
the word is complete never completes it. -/
def Obligations.DispatchWordIsBuiltFromRequestAndSource : Prop :=
  (∀ (s : State) (h : Byte) (rest : List Byte), s.req.op = .holding .decode → HeaderAhead s h rest →
    (h.getLsbD 7 = true → fetch s = .word (dispatchWord 1 0b00 0 h)) ∧
    (h.getLsbD 7 = false →
      (s.src.term = .eos → rest = [] → fetch s = .word (dispatchWord 1 0b00 0 h)) ∧
      (s.src.term = .eos → rest.length = 1 → fetch s = .word (dispatchWord 1 0b01 0 h)) ∧
      (s.src.term = .eos → 2 ≤ rest.length → fetch s = .word (dispatchWord 1 0b10 0 h)) ∧
      (s.src.term = .fail → fetch s = .word (dispatchWord 1 0b00 0 h)) ∧
      (s.src.term = .stall → fetch s = .stalled))) ∧
  (∀ s : State, s.req.op = .holding .decode → s.work.hdr.valid = false → srcBytes s = [] →
    (s.src.term ≠ .stall → ∃ d, fetch s = .word d ∧ d.getLsbD 11 = false ∧ d.getLsbD 8 = false) ∧
    (s.src.term = .stall → fetch s = .stalled)) ∧
  (∀ (s : State) (k : BitVec 2) (p : List Byte), s.req.op = .holding .encode → s.req.kind = .holding k →
    s.req.payload = .holding p →
    (p = [] → fetch s = .word (dispatchWord 1 0b00 1 (k ++ 0#6))) ∧
    (p ≠ [] → fetch s = .word (dispatchWord 1 0b01 1 (k ++ 0#6))))

/-- A dispatch word that the machine builds can occur in R96's sense, so the decoder has a form for it. -/
def Obligations.EveryBuiltWordHasItsForm : Prop :=
  ∀ (s : State) (d : DWord), fetch s = .word d → d.canOccur = true ∧ ∃ i, decode d = .ok i

/-- A BUSY block whose host does nothing runs the form its dispatch word decodes to, and nothing else (R96). So it does when the
host's next action is one that waits until the operation ends, and that action stays; a quiet action is used up. The operation is
within `MAX_FRAME` (R6); one that is beyond it is refused, `InputsBeyondTheLimitsAreRefused`. -/
def Obligations.StepRunsTheDecodedForm : Prop :=
  ∀ (s : State) (d : DWord) (i : Instr), s.phase = .busy → fetch s = .word d → decode d = .ok i → frameFits s = true →
    (s.host = [] → step s = exec i s) ∧
    (∀ r later, s.host = .request r :: later → step s = exec i s) ∧
    (∀ octets term later, s.host = .attachSource octets term :: later → step s = exec i s) ∧
    (∀ content answer later, s.host = .attachSink content answer :: later → step s = exec i s) ∧
    (∀ answer later, s.host = .sinkWillAnswer answer :: later → step s = exec i s) ∧
    (∀ later, s.host = .quiet :: later → step s = exec i { s with host := later })

/-- The word of any form, placed by `withFetchWord` in any state, is what the next step builds and runs, with the host's coming
actions as they were. How a word is placed is the model's own (log entry 8). The source placed has at most 3 octets, and
`MAX_FRAME`, if given, admits so many; a placed ENCODE meets no `MAX_PAYLOAD` check (log entry 8, DESIGN CHOICE). -/
def Obligations.PlacedWordRunsNext : Prop :=
  ∀ (s : State) (nbits : Nat) (i : Instr),
    Presents (s.withFetchWord nbits (encode i).toNat) i ∧
    (withinLimit s.limits.maxFrame 3 = true →
      step (s.withFetchWord nbits (encode i).toNat) =
        exec i { s.withFetchWord nbits (encode i).toNat with host := s.host })

/-! ### Reset, requests and the host (10_state.md, 70_reset_and_hazards.md) -/

/-- R37, R230: after reset `PHASE` is IDLE and no register holds a value, so a read of any result register faults; for ports of any
widths, of which `State.reset` has the default of R6, and for any length limits, of which `State.reset` has none (log entry 5,
DESIGN CHOICE). (What an unreadable register has in its value part is the model's choice,
log entry 1; nothing here rests on it.) -/
def Obligations.ResetLeavesOnlyPhase : Prop :=
  (∀ (p : PortWidths) (l : LengthLimits),
    let z := State.resetWith p l
    z.ports = p ∧ z.limits = l ∧ z.phase = .idle ∧
    (z.req.op.valid = false ∧ z.req.kind.valid = false ∧ z.req.seq.valid = false ∧ z.req.ctl.valid = false ∧
      z.req.sc.valid = false ∧ z.req.payload.valid = false) ∧
    (z.work.hdr.valid = false ∧ z.work.cbuf.valid = false ∧ z.work.obuf.valid = false) ∧
    (∀ r : ResultReg, step { z with host := [.readResult r] } = .fault (.noValue (.result r)))) ∧
  ∃ p : PortWidths, State.reset = State.resetWith p ⟨none, none⟩ ∧ p.seqW = 8 ∧ p.ctlW = 8

/-- R230: a reset, in IDLE and in BUSY, in any state: `PHASE` IDLE, and no other register of the block holds a value, so a read of
any result register would fault. A reset of an IDLE block leaves the source and the sink as they were (R37). -/
def Obligations.ResetClearsTheBlock : Prop :=
  ∀ (s : State) (later : List HostEvent), s.host = .reset :: later →
    ∃ t, step s = .next t ∧ t.phase = .idle ∧ t.host = later ∧
      (t.req.op.valid = false ∧ t.req.kind.valid = false ∧ t.req.seq.valid = false ∧ t.req.ctl.valid = false ∧
        t.req.sc.valid = false ∧ t.req.payload.valid = false) ∧
      (t.work.hdr.valid = false ∧ t.work.cbuf.valid = false ∧ t.work.obuf.valid = false) ∧
      (∀ r : ResultReg, readResult r t = .fault (.noValue (.result r))) ∧
      (s.phase = .idle → t.src = s.src ∧ t.snk = s.snk)

/-- A reset of a BUSY block ends the operation without a status (R231), and leaves no register but `PHASE` a value (R230). The source
position is some position from where the operation started to the last octet the source holds (D8); where it started is `opStart`,
the model's own note (log entry 21, DESIGN CHOICE). The sink holds the whole frame of an abandoned ENCODE or none of it (R231, R54),
and is untouched by an abandoned DECODE. Which position, and which of the two, are free values (log entries 6 and 7). The reset is the
host's next action; a reset that stands behind a waiting action waits with it, which is the model's choice (log entry 20). -/
def Obligations.ResetInBusyAbandonsTheOperation : Prop :=
  ∀ (s : State) (later : List HostEvent), MachineInv s → s.phase = .busy → s.host = .reset :: later →
    ∃ t, step s = .next t ∧ t.phase = .idle ∧ t.req = .void s.ports ∧ t.work = .void ∧ t.res = .void ∧
      t.host = later ∧
      t.src.octets = s.src.octets ∧ t.src.term = s.src.term ∧
      s.opStart ≤ t.src.pos ∧ t.src.pos ≤ s.src.octets.length ∧
      t.snk.answer = s.snk.answer ∧
      (s.req.op.value = .decode → t.snk.content = s.snk.content) ∧
      (s.req.op.value = .encode → t.snk.content = s.snk.content ∨
        ∃ frame, EncodesTo (latchedTpdu s) frame ∧ t.snk.content = s.snk.content ++ frame)

/-- R24, R25, R34: an IDLE block accepts a request: `PHASE` BUSY, the request latched, every other register without a value, the
source and the sink as they were. An ENCODE request is within `MAX_PAYLOAD` (R6, R25); one beyond it is refused,
`InputsBeyondTheLimitsAreRefused`. The words on `REQ_SEQ` and `REQ_CTL` have the widths of the ports, whatever these are; that a
number too big for its port is cut to it is the model's choice (log entry 4), and so is `opStart` (log entry 21). -/
def Obligations.IdleBlockAcceptsRequest : Prop :=
  ∀ (s : State) (r : Request) (later : List HostEvent), s.phase = .idle → s.host = .request r :: later →
    (r.op = .encode → withinLimit s.limits.maxPayload r.tpdu.payload.length = true) →
    step s = .next { s with
      phase := .busy
      req := ⟨.holding r.op, .holding r.tpdu.kind, .holding ⟨s.ports.seqW, BitVec.ofNat s.ports.seqW r.tpdu.seq⟩,
              .holding ⟨s.ports.ctlW, BitVec.ofNat s.ports.ctlW r.tpdu.ctl⟩, .holding r.tpdu.sc,
              .holding r.tpdu.payload⟩
      work := ⟨.void, .void, .void⟩
      res := ⟨.void, .void, .void, .void, .void, .void, .void⟩
      opStart := s.src.pos
      host := later }

/-- What the host, or another agent, does to the streams of an IDLE block: it attaches a source, attaches a sink, chooses the sink's
answer, drains octets, writes bytes, or does nothing, with or without a coming action. No register of the block changes. That the host attaches the streams between operations is
R233, that it may drain trailing octets R238, that the next operation sees the streams so R65. The rest is the model's: the list of
actions (log entry 8, DESIGN CHOICE), position 0 of a source just attached (log entry 3, DEDUCED), the sink's answer as a field
that stays until it is set again (log entry 14, DESIGN CHOICE), and a drain that takes at most the octets there and leaves the
terminator (log entry 19, DESIGN CHOICE). -/
def Obligations.IdleHostActsOnStreamsOnly : Prop :=
  ∀ (s : State) (later : List HostEvent), s.phase = .idle →
    (s.host = [] → step s = .next s) ∧
    (s.host = .quiet :: later → step s = .next { s with host := later }) ∧
    (∀ octets term, s.host = .attachSource octets term :: later →
      ∃ t, step s = .next t ∧ srcBytes t = octets ∧ t = { s with src := ⟨octets, 0, term⟩, host := later }) ∧
    (∀ content answer, s.host = .attachSink content answer :: later →
      step s = .next { s with snk := ⟨content, answer⟩, host := later }) ∧
    (∀ answer, s.host = .sinkWillAnswer answer :: later →
      step s = .next { s with snk := { s.snk with answer := answer }, host := later }) ∧
    (∀ n, s.host = .takeFromSource n :: later →
      ∃ t, step s = .next t ∧ srcBytes t = (srcBytes s).drop n ∧
        t = { s with src := { s.src with pos := t.src.pos }, host := later }) ∧
    (∀ bytes, s.host = .writeToSink bytes :: later →
      step s = .next { s with snk := { s.snk with content := s.snk.content ++ bytes }, host := later })

/-- R24, R214: a request presented to a BUSY block waits: whatever the step does, the request is still the host's next action and
the latched request has not changed. -/
def Obligations.BusyBlockLeavesRequestWaiting : Prop :=
  ∀ (s t : State) (r : Request) (later : List HostEvent), s.phase = .busy → s.host = .request r :: later →
    step s = .next t → t.host = .request r :: later ∧ t.req = s.req

/-- R34 (and R155, R232): two IDLE blocks with the same parameters that differ only in what earlier operations left in their
registers, one of them perhaps just reset, go through the same states from the acceptance of a request on; and right after it `HDR`,
`CBUF`, `OBUF` and the result registers hold no value. (A request beyond `MAX_PAYLOAD` is not accepted, in either.) -/
def Obligations.OperationsForgetEarlierOperations : Prop :=
  ∀ (s t : State) (r : Request) (later : List HostEvent), s.phase = .idle → t.phase = .idle → s.ports = t.ports → s.limits = t.limits →
    s.src = t.src → s.snk = t.snk → s.draws = t.draws → s.host = .request r :: later → t.host = .request r :: later →
    (∀ n : Nat, runSteps (n + 1) s = runSteps (n + 1) t) ∧
    (requestFits s.limits r = true → ∃ u, step s = .next u ∧
      u.work.hdr.valid = false ∧ u.work.cbuf.valid = false ∧ u.work.obuf.valid = false ∧
      ∀ reg : ResultReg, u.res.holds reg = false)

/-- The host's read of a result register of an IDLE block changes nothing when the register holds a value. It faults when the
register holds none, in IDLE and in BUSY (R33, R37), and in BUSY in every case: the count that an ENCODE hung at its sink has written
(R170) is not read before the operation ends (R37; that this holds of every operation, not of the first alone, is the model's
reading of R37 with R34 and R232, log entry 11, DEDUCED). That a read that succeeds changes nothing and takes a step of its own is
the model's reading (log entry 13, DEDUCED). -/
def Obligations.ResultReadFaultsWithoutValue : Prop :=
  ∀ (s : State) (r : ResultReg) (later : List HostEvent), s.host = .readResult r :: later →
    (s.phase = .idle → s.res.holds r = true → step s = .next { s with host := later }) ∧
    (s.res.holds r = false → step s = .fault (.noValue (.result r))) ∧
    (s.phase = .busy → step s = .fault (.noValue (.result r)))

/-- R70: a read of the source by another agent during a DECODE is refused, and so is a write of the sink by another agent during an
ENCODE. (An access to the stream that the operation does not use: `AccessToTheOtherStreamHasItsEffect`.) -/
def Obligations.ForeignAccessToBusyStreamIsRefused : Prop :=
  (∀ (s : State) (n : Nat) (later : List HostEvent), s.phase = .busy → s.req.op = .holding .decode →
    s.host = .takeFromSource n :: later → step s = .refused .foreignSourceRead) ∧
  (∀ (s : State) (bytes : List Byte) (later : List HostEvent), s.phase = .busy → s.req.op = .holding .encode →
    s.host = .writeToSink bytes :: later → step s = .refused .foreignSinkWrite)

/-! ### The DECODE forms (41_decode.md) -/

/-- R141 (D6 for `FAIL`): `DECODE.NOHDR`, on a source that delivers no octet. In this and the next statements an ending leaves `CBUF`
and `OBUF` without a value, because they live only for the operation (R69). -/
def Obligations.DecodeNohdrEndings : Prop :=
  ∀ s : State, s.req.op = .holding .decode → s.work.hdr.valid = false → srcBytes s = [] →
    (s.src.term = .eos → Presents s .decodeNohdr ∧
      exec .decodeNohdr s =
        .next { s with
          phase := .idle
          work := { s.work with cbuf := .void, obuf := .void }
          res := ⟨.holding 1, .void, .void, .void, .void, .void, .holding 0⟩ }) ∧
    (s.src.term = .fail → Presents s .decodeNohdr ∧
      exec .decodeNohdr s =
        .next { s with
          phase := .idle
          work := { s.work with cbuf := .void, obuf := .void }
          res := ⟨.holding 3, .void, .void, .void, .void, .void, .holding 0⟩ }) ∧
    (s.src.term = .stall → fetch s = .stalled ∧ exec .decodeNohdr s = .next s)

/-- R143 and R144 (with R142, R152): `DECODE.UCD` and `DECODE.NCD`. The header octet is taken; SEQ and control come from it; the
octets after it and the source's terminator play no part. -/
def Obligations.DecodeControlFormsResult : Prop :=
  ∀ (s : State) (h : Byte) (rest : List Byte), s.req.op = .holding .decode → HeaderAhead s h rest →
    (h.extractLsb' 6 2 = 0b10#2 →
      Presents s (.decodeUcd (h.extractLsb' 2 4) (h.extractLsb' 0 2)) ∧
      exec (.decodeUcd (h.extractLsb' 2 4) (h.extractLsb' 0 2)) s = .next { afterHeader h s with
        phase := .idle
        work := ⟨.holding h, .void, .void⟩
        res := ⟨.holding 0, .holding 0b10, .holding (h.extractLsb' 2 4), .holding (h.extractLsb' 0 2), .holding 0,
                .holding [], .holding 1⟩ }) ∧
    (h.extractLsb' 6 2 = 0b11#2 →
      Presents s (.decodeNcd (h.extractLsb' 2 4) (h.extractLsb' 0 2)) ∧
      exec (.decodeNcd (h.extractLsb' 2 4) (h.extractLsb' 0 2)) s = .next { afterHeader h s with
        phase := .idle
        work := ⟨.holding h, .void, .void⟩
        res := ⟨.holding 0, .holding 0b11, .holding (h.extractLsb' 2 4), .holding (h.extractLsb' 0 2), .holding 0,
                .holding [], .holding 1⟩ })

/-- R150 and R151: `DECODE.UDP.NOCONT` and `DECODE.NDP.NOCONT`. The first clause of each kind is `DataUnitTooShort`, the second
`IoFailure` (D6), with the position drawn in D8's range. -/
def Obligations.DecodeNocontFormsEndings : Prop :=
  ∀ (s : State) (h : Byte) (rest : List Byte), s.req.op = .holding .decode → HeaderAhead s h rest →
    ∀ i : Instr,
      (h.extractLsb' 6 2 = 0b00#2 ∧ i = .decodeUdpNocont (h.extractLsb' 2 4) (h.extractLsb' 0 2)) ∨
        (h.extractLsb' 6 2 = 0b01#2 ∧ i = .decodeNdpNocont (h.extractLsb' 2 4) (h.extractLsb' 0 2)) →
      (s.src.term = .eos → rest = [] → Presents s i ∧
        exec i s = .next { afterHeader h s with
          phase := .idle
          work := ⟨.holding h, .void, .void⟩
          res := ⟨.holding 2, .void, .void, .void, .void, .void, .holding 1⟩ }) ∧
      (s.src.term = .fail → Presents s i ∧
        ∃ k ≤ rest.length, exec i s = .next { afterHeader h s with
          phase := .idle
          work := ⟨.holding h, .void, .void⟩
          src := { s.src with pos := s.src.pos + 1 + k }
          draws := s.draws + 1
          res := ⟨.holding 3, .void, .void, .void, .void, .void, .holding (1 + k)⟩ })

/-- R146 and R148: `DECODE.UDP.SHORT` and `DECODE.NDP.SHORT`. -/
def Obligations.DecodeShortFormsResult : Prop :=
  ∀ (s : State) (h c : Byte), s.req.op = .holding .decode → HeaderAhead s h [c] → s.src.term = .eos →
    ∀ i : Instr,
      (h.extractLsb' 6 2 = 0b00#2 ∧ i = .decodeUdpShort (h.extractLsb' 2 4) (h.extractLsb' 0 2)) ∨
        (h.extractLsb' 6 2 = 0b01#2 ∧ i = .decodeNdpShort (h.extractLsb' 2 4) (h.extractLsb' 0 2)) →
      Presents s i ∧
      exec i s = .next { afterHeader h s with
        phase := .idle
        src := { s.src with pos := s.src.pos + 2 }
        work := ⟨.holding h, .void, .void⟩
        res := ⟨.holding 0, .holding (h.extractLsb' 6 2), .holding (h.extractLsb' 2 4), .holding 0,
                .holding (h.extractLsb' 0 2 ++ c.extractLsb' 6 2), .holding [(c.extractLsb' 0 6).setWidth 8],
                .holding 2⟩ }

/-- R147 and R149: `DECODE.UDP.LONG` and `DECODE.NDP.LONG`. Bits 5:0 of the first octet after the header are in no result. -/
def Obligations.DecodeLongFormsResult : Prop :=
  ∀ (s : State) (h c p : Byte) (rest : List Byte), s.req.op = .holding .decode →
    HeaderAhead s h (c :: p :: rest) → s.src.term = .eos →
    ∀ i : Instr,
      (h.extractLsb' 6 2 = 0b00#2 ∧ i = .decodeUdpLong (h.extractLsb' 2 4) (h.extractLsb' 0 2)) ∨
        (h.extractLsb' 6 2 = 0b01#2 ∧ i = .decodeNdpLong (h.extractLsb' 2 4) (h.extractLsb' 0 2)) →
      Presents s i ∧
      exec i s = .next { afterHeader h s with
        phase := .idle
        src := { s.src with pos := s.src.pos + (3 + rest.length) }
        work := ⟨.holding h, .void, .void⟩
        res := ⟨.holding 0, .holding (h.extractLsb' 6 2), .holding (h.extractLsb' 2 4), .holding 0,
                .holding (h.extractLsb' 0 2 ++ c.extractLsb' 6 2), .holding (p :: rest),
                .holding (3 + rest.length)⟩ }

/-- R145 (with R53, R60): the rest-read that every data form makes, whatever octets the source holds. A `FAIL` raises `IoFailure`; a
`STALL` leaves the operation as it is, with the header taken; with `END`, the read puts every octet after the header into `CBUF` and
leaves none in the source, whatever the form then does with them, and a form that answers a next state has ended. -/
def Obligations.DataFormsRestRead : Prop :=
  ∀ (s : State) (h : Byte) (rest : List Byte) (q : BitVec 4) (l : BitVec 2), HeaderAhead s h rest →
    ∀ i ∈ [Instr.decodeUdpNocont q l, .decodeUdpShort q l, .decodeUdpLong q l, .decodeNdpNocont q l,
           .decodeNdpShort q l, .decodeNdpLong q l],
      (s.src.term = .fail → ∃ t, exec i s = .next t ∧ t.phase = .idle ∧ t.res.status = .holding 3 ∧
        t.res.record = none ∧ s.src.pos + 1 ≤ t.src.pos ∧ t.src.pos ≤ s.src.pos + 1 + rest.length ∧
        t.res.consumed = .holding (t.src.pos - s.src.pos)) ∧
      (s.src.term = .stall → exec i s = .next (afterHeader h s)) ∧
      (s.src.term = .eos →
        (∃ u, u.work.hdr = .holding h ∧ u.work.cbuf = .holding rest ∧ srcBytes u = [] ∧
          u.src.pos = s.src.pos + 1 + rest.length ∧ u.snk = s.snk ∧ u.phase = s.phase ∧
          ∀ k, takeRest (afterHeader h s) k = k rest u) ∧
        (∀ t, exec i s = .next t → srcBytes t = [] ∧ t.phase = .idle))

/-- What every DECODE form leaves alone (R50, R59): the request registers, the parameters, the sink, the octets of the source and how it
ends, and the host's coming actions. The source never moves back (R61). `OBUF` stays as it is, unless the operation ends, which
leaves it without a value (R69). -/
def Obligations.DecodeFormsFrame : Prop :=
  ∀ (s t : State) (q : BitVec 4) (l : BitVec 2),
    ∀ i ∈ [Instr.decodeNohdr, .decodeUcd q l, .decodeNcd q l, .decodeUdpNocont q l, .decodeUdpShort q l,
           .decodeUdpLong q l, .decodeNdpNocont q l, .decodeNdpShort q l, .decodeNdpLong q l],
      exec i s = .next t →
        t.req = s.req ∧ (t.work.obuf = s.work.obuf ∨ (t.phase = .idle ∧ t.work.obuf = .void)) ∧ t.snk = s.snk ∧
        t.src.octets = s.src.octets ∧ t.src.term = s.src.term ∧ t.host = s.host ∧ s.src.pos ≤ t.src.pos ∧
        t.ports = s.ports ∧ t.limits = s.limits ∧ t.opStart = s.opStart

/-- R152: a control header is the only octet a DECODE takes, the octets after it stay in order, and the source's terminator is not
looked at: with another terminator the same form is presented and runs alike. -/
def Obligations.ControlDecodeIgnoresRestOfSource : Prop :=
  ∀ (s : State) (h : Byte) (rest : List Byte) (term : SrcTerm), s.req.op = .holding .decode → HeaderAhead s h rest →
    kindMux (extPt h) = .control →
    ∃ t, runOperation s = .next t ∧ t.phase = .idle ∧ t.res.consumed = .holding 1 ∧ srcBytes t = rest ∧
      t.src.term = s.src.term ∧
      runOperation { s with src := { s.src with term := term } } =
        .next { t with src := { t.src with term := term } }

/-- R153 and R35: `RES_CONSUMED` for each ending of a DECODE, and `SRC_POS` moved by exactly that count. -/
def Obligations.ConsumedCountsTheOctetsTaken : Prop :=
  ∀ s t : State, s.req.op = .holding .decode → s.work.hdr.valid = false → runOperation s = .next t → t.phase = .idle →
    s.phase = .busy →
    ∃ n, t.res.consumed = .holding n ∧ t.src.pos = s.src.pos + n ∧
      (t.res.status = .holding 1 → n = 0) ∧
      (t.res.status = .holding 2 → n = 1) ∧
      (t.res.status = .holding 0 → kindMux t.res.kind.value = .control → n = 1) ∧
      (t.res.status = .holding 0 → kindMux t.res.kind.value = .data → n = (srcBytes s).length)

/-! ### The ENCODE forms (42_encode.md) -/

/-- R172 and R173: `ENCODE.UCD` and `ENCODE.NCD`, when the sink answers. `REQ_SC` and `REQ_PAYLOAD` are in neither frame. The ports
have any width. (A sink that never answers: `EncodeHangsAtItsSink`.) -/
def Obligations.EncodeControlFormsResult : Prop :=
  ∀ (s : State) (q c : PortWord), s.req.op = .holding .encode →
    s.req.seq = .holding q → s.req.ctl = .holding c → s.req.payload.valid = true →
    let low : Byte := ((q.bits.setWidth 8 &&& 15) <<< 2) ||| (c.bits.setWidth 8 &&& 3)
    (s.req.kind = .holding 0b10 → Presents s .encodeUcd ∧ EncodeRuns .encodeUcd s (0x80 ||| low) [0x80 ||| low]) ∧
    (s.req.kind = .holding 0b11 → Presents s .encodeNcd ∧ EncodeRuns .encodeNcd s (0xC0 ||| low) [0xC0 ||| low])

/-- R174 and R176: `ENCODE.UDP.EMPTY` and `ENCODE.NDP.EMPTY`, when the sink answers. The port has any width. (A sink that never
answers: `EncodeHangsAtItsSink`.) -/
def Obligations.EncodeEmptyFormsResult : Prop :=
  ∀ (s : State) (q : PortWord) (sc : BitVec 4), s.req.op = .holding .encode →
    s.req.seq = .holding q → s.req.sc = .holding sc → s.req.payload = .holding [] →
    let low : Byte := ((q.bits.setWidth 8 &&& 15) <<< 2) ||| (sc.extractLsb' 2 2).setWidth 8
    let c : Byte := (sc.extractLsb' 0 2).setWidth 8 <<< 6
    (s.req.kind = .holding 0b00 → Presents s .encodeUdpEmpty ∧ EncodeRuns .encodeUdpEmpty s low [low, c]) ∧
    (s.req.kind = .holding 0b01 → Presents s .encodeNdpEmpty ∧
      EncodeRuns .encodeNdpEmpty s (0x40 ||| low) [0x40 ||| low, c])

/-- R175 and R177: `ENCODE.UDP.PAYLOAD` and `ENCODE.NDP.PAYLOAD`, for a payload of any length from 1, when the sink answers. The port
has any width. (A sink that never answers: `EncodeHangsAtItsSink`.) -/
def Obligations.EncodePayloadFormsResult : Prop :=
  ∀ (s : State) (q : PortWord) (sc : BitVec 4) (p : Byte) (rest : List Byte), s.req.op = .holding .encode →
    s.req.seq = .holding q → s.req.sc = .holding sc → s.req.payload = .holding (p :: rest) →
    let low : Byte := ((q.bits.setWidth 8 &&& 15) <<< 2) ||| (sc.extractLsb' 2 2).setWidth 8
    let c : Byte := ((sc.extractLsb' 0 2).setWidth 8 <<< 6) ||| (p &&& 0x3F)
    (s.req.kind = .holding 0b00 → Presents s .encodeUdpPayload ∧
      EncodeRuns .encodeUdpPayload s low (low :: c :: rest)) ∧
    (s.req.kind = .holding 0b01 → Presents s .encodeNdpPayload ∧
      EncodeRuns .encodeNdpPayload s (0x40 ||| low) ((0x40 ||| low) :: c :: rest))

/-- What every ENCODE form leaves alone (R50, R59): the request registers, the parameters, the source, the free draws, and the host's
coming actions; `CBUF`, unless the operation ends (R69); and what the sink held before. R36: an ENCODE that ends `OK` appends exactly
`OBUF`, which is what the form leaves in it when the sink never answers; one that ends `IoFailure` appends nothing. That a form whose
sink never answers leaves `OBUF` so, and of the result registers has written `RES_CONSUMED` alone, with 0 (the order of
R170; the host cannot read it before the operation ends, R37), is the model's reading (log entry 11, DEDUCED). -/
def Obligations.EncodeFormsFrame : Prop :=
  ∀ (s t : State),
    ∀ i ∈ [Instr.encodeUcd, .encodeNcd, .encodeUdpEmpty, .encodeUdpPayload, .encodeNdpEmpty, .encodeNdpPayload],
      exec i s = .next t →
        t.req = s.req ∧ (t.work.cbuf = s.work.cbuf ∨ (t.phase = .idle ∧ t.work.cbuf = .void)) ∧ t.src = s.src ∧
        t.draws = s.draws ∧ t.host = s.host ∧ t.ports = s.ports ∧ t.limits = s.limits ∧ t.opStart = s.opStart ∧
        t.snk.answer = s.snk.answer ∧
        ∃ u, exec i { s with snk := { s.snk with answer := .stall } } = .next u ∧ u.work.obuf.valid = true ∧
          ((s.snk.answer = .ok ∧ t.snk.content = s.snk.content ++ u.work.obuf.value ∧ t.res.status = .holding 0) ∨
           (s.snk.answer = .fail ∧ t.snk.content = s.snk.content ∧ t.res.status = .holding 3) ∨
           (s.snk.answer = .stall ∧ t.snk.content = s.snk.content ∧ t.res = { s.res with consumed := .holding 0 }))

/-- R180: ENCODE has no error but a sink failure, and no request is rejected: every latched ENCODE request presents a form, and
that form runs to the frame of the latched record. The rule is the spec's own derivation. The clause about a sink that never
answers, with the frame left in `OBUF` and of the result registers `RES_CONSUMED` alone written, with 0 (the order of
R170; the host cannot read it before the operation ends, R37), is the model's reading (log entry 11, DEDUCED) and not R180's. -/
def Obligations.EncodeRejectsNoRequest : Prop :=
  ∀ s : State, s.req.latched → s.req.op = .holding .encode →
    ∃ i t frame, Presents s i ∧ exec i s = .next t ∧ EncodesTo (latchedTpdu s) frame ∧ frame ≠ [] ∧
      (s.snk.answer = .ok → t.phase = .idle ∧ t.res.status = .holding 0 ∧ t.snk.content = s.snk.content ++ frame) ∧
      (s.snk.answer = .fail → t.phase = .idle ∧ t.res.status = .holding 3 ∧ t.snk.content = s.snk.content) ∧
      (s.snk.answer = .stall → t.phase = s.phase ∧ t.res = { s.res with consumed := .holding 0 } ∧
        t.work.obuf = .holding frame)

/-! ### Errors (60_exceptions.md) -/

/-- R207: the status of an operation that ends is decided by the first cause in the order of R140 (D6). An ENCODE that ends has
`IoFailure` or `OK`. -/
def Obligations.FirstCauseDecidesTheStatus : Prop :=
  (∀ (s t : State), s.req.op = .holding .decode → s.work.hdr.valid = false → s.phase = .busy →
    runOperation s = .next t → t.phase = .idle →
    (srcBytes s = [] → s.src.term = .fail → t.res.status = .holding 3) ∧
    (srcBytes s = [] → s.src.term = .eos → t.res.status = .holding 1) ∧
    (∀ h rest, srcBytes s = h :: rest →
      (kindMux (extPt h) = .control → t.res.status = .holding 0) ∧
      (kindMux (extPt h) = .data → s.src.term = .fail → t.res.status = .holding 3) ∧
      (kindMux (extPt h) = .data → s.src.term = .eos → rest = [] → t.res.status = .holding 2) ∧
      (kindMux (extPt h) = .data → s.src.term = .eos → rest ≠ [] → t.res.status = .holding 0))) ∧
  (∀ (s t : State), s.req.latched → s.req.op = .holding .encode → s.phase = .busy →
    runOperation s = .next t → t.phase = .idle →
    (s.snk.answer = .fail ∧ t.res.status = .holding 3) ∨ (s.snk.answer = .ok ∧ t.res.status = .holding 0))

/-- R208: an operation that raises an error sets `PHASE` to IDLE; no record register holds a value and a read of one faults, the
request registers are as they were, and outside the block exactly R208's list has changed. `RES_CONSUMED` and the source position
follow D8: after an `IoFailure` of DECODE, from 1 to all the octets there when the header was taken, and 0 when there was none. -/
def Obligations.ErrorLeavesStatusAndNoRecord : Prop :=
  ∀ (s t : State) (code : BitVec 2), MachineInv s → s.phase = .busy → runOperation s = .next t →
    t.res.status = .holding code → code ≠ 0 →
    t.phase = .idle ∧
    (∀ r ∈ [ResultReg.kind, .seq, .ctl, .sc, .payload], readResult r t = .fault (.noValue (.result r))) ∧
    ¬ t.res.recordSomewhere ∧ t.req = s.req ∧ t.src.octets = s.src.octets ∧ t.src.term = s.src.term ∧ t.snk = s.snk ∧
    (code = 1 → s.req.op.value = .decode ∧ t.res.consumed = .holding 0 ∧ t.src.pos = s.src.pos) ∧
    (code = 2 → s.req.op.value = .decode ∧ t.res.consumed = .holding 1 ∧ t.src.pos = s.src.pos + 1) ∧
    (code = 3 → s.req.op.value = .encode → t.res.consumed = .holding 0 ∧ t.src.pos = s.src.pos) ∧
    (code = 3 → s.req.op.value = .decode → t.res.consumed = .holding (t.src.pos - s.src.pos) ∧
      s.src.pos ≤ t.src.pos ∧ t.src.pos ≤ s.src.pos + (srcBytes s).length ∧
      (srcBytes s ≠ [] → s.src.pos + 1 ≤ t.src.pos))

/-- R205: no other cause stops the machine. From a state with the invariant, the only fault is the host's own read of a result
register that holds no value, or of `RES_CONSUMED` before the ENCODE that wrote it has ended (R37; log entry 11), and the
only refusals are accesses of another agent to the stream in use (R70), and inputs beyond a limit that is given (D17, I11; log
entry 5). -/
def Obligations.OnlyTheHostCanStopTheMachine : Prop :=
  ∀ s : State, MachineInv s →
    (∀ f, step s = .fault f → ∃ r later, s.host = .readResult r :: later ∧ f = .noValue (.result r) ∧
      (s.res.holds r = false ∨ (r = .consumed ∧ s.phase = .busy ∧ s.req.op.value = .encode))) ∧
    (∀ why, step s = .refused why →
      (why = .foreignSourceRead ∧ s.phase = .busy ∧ s.req.op.value = .decode ∧
        ∃ n later, s.host = .takeFromSource n :: later) ∨
      (why = .foreignSinkWrite ∧ s.phase = .busy ∧ s.req.op.value = .encode ∧
        ∃ bytes later, s.host = .writeToSink bytes :: later) ∨
      (why = .frameTooLong ∧ s.phase = .busy ∧ s.req.op.value = .decode ∧
        ∃ m, s.limits.maxFrame = some m ∧ m < (if s.work.hdr.valid then 1 else 0) + (srcBytes s).length) ∨
      (why = .payloadTooLong ∧ s.phase = .idle ∧
        ∃ r later m, s.host = .request r :: later ∧ r.op = .encode ∧ s.limits.maxPayload = some m ∧
          m < r.tpdu.payload.length))

/-- R243: an operation, within `MAX_FRAME` (R6), whose source terminates and whose sink answers ends; here in the one step that
runs it. -/
def Obligations.OperationEndsWhenStreamsRespond : Prop :=
  ∀ s : State, MachineInv s → s.phase = .busy → HostLetsRun s → frameFits s = true →
    ∃ t, step s = .next t ∧
      (s.src.term ≠ .stall → s.snk.answer ≠ .stall → t.phase = .idle ∧ t.res.status.valid = true)

/-- R237: a DECODE that has to wait for the source's terminator, on a source that never has one, and an ENCODE whose sink never
answers, are BUSY after any number of steps, with no status, no record and nothing in the sink. A `MAX_FRAME`, if given, admits the
octets of the source (R6). -/
def Obligations.StalledOperationNeverEnds : Prop :=
  ∀ s : State, MachineInv s → s.phase = .busy → s.host = [] → frameFits s = true →
    ((s.req.op.value = .decode ∧ s.src.term = .stall ∧
        (s.work.hdr.valid = true ∨ srcBytes s = [] ∨ ∃ h rest, srcBytes s = h :: rest ∧ kindMux (extPt h) = .data)) ∨
      (s.req.op.value = .encode ∧ s.snk.answer = .stall)) →
    ∀ n : Nat, ∃ t, runSteps n s = .next t ∧ t.phase = .busy ∧ t.res.status.valid = false ∧ ¬ t.res.recordSomewhere ∧
      t.snk = s.snk

/-! ### The invariant -/

/-- The state after reset has the invariant, for ports of any widths and any length limits. -/
def Obligations.ResetMeetsInvariant : Prop :=
  MachineInv State.reset ∧ ∀ (p : PortWidths) (l : LengthLimits), MachineInv (State.resetWith p l)

/-- Every step keeps the invariant (R25, R28, R29, R32, R33, R34, R42, R60, R69, R200): among it, that a decoded record is there only
after a DECODE that ended `OK`, and has the shape R42 says, that `CBUF` and `OBUF` hold a value only during an operation, and that
`REQ_PAYLOAD` of an ENCODE and `OBUF` are within `MAX_PAYLOAD`. The clause about a count in BUSY is the model's reading of R170 (log
entry 11, DEDUCED), and so are the 2 octets in `OBUF` when `MAX_PAYLOAD` is 0 (log entry 5, DEDUCED). -/
def Obligations.StepKeepsInvariant : Prop :=
  ∀ s t : State, MachineInv s → step s = .next t → MachineInv t

/-! ### Encode/decode relations (42_encode.md section 5) -/

/-- R171, R178 and R187: two records that differ only in bits ENCODE drops, or in fields it ignores, encode to the same frame. -/
def Obligations.UnusedBitsDoNotReachTheFrame : Prop :=
  ∀ (t u : Tpdu) (frame : List Byte), t.sameUsedBits u → EncodesTo t frame → EncodesTo u frame

/-- R181: the length of the frame, for every record. The rule is the spec's own derivation. -/
def Obligations.FrameLengthFollowsThePayload : Prop :=
  ∀ t : Tpdu, ∃ frame, EncodesTo t frame ∧
    (isControlKind t.kind = true → frame.length = 1) ∧
    (isControlKind t.kind = false → t.payload = [] → frame.length = 2) ∧
    (isControlKind t.kind = false → t.payload ≠ [] → frame.length = 1 + t.payload.length)

/-- R185: decoding the frame of any record, well-formed or not, gives `norm` of the record, and consumes the whole frame. The rule
is the spec's own derivation. -/
def Obligations.DecodeOfFrameIsNorm : Prop :=
  ∀ t : Tpdu, ∃ frame, EncodesTo t frame ∧ DecodesTo frame t.norm frame.length

/-- R182: a well-formed control record comes back whole, from one octet. -/
def Obligations.ControlRecordRoundTrips : Prop :=
  ∀ t : Tpdu, t.wf = true → isControlKind t.kind = true → ∃ frame, EncodesTo t frame ∧ DecodesTo frame t 1

/-- R183: a well-formed data record with at most one payload byte comes back whole, but an empty payload comes back as one byte of
value 0. -/
def Obligations.ShortRecordRoundTrips : Prop :=
  ∀ t : Tpdu, t.wf = true → isControlKind t.kind = false → t.payload.length ≤ 1 →
    ∃ frame, EncodesTo t frame ∧ DecodesTo frame { t with payload := if t.payload = [] then [0x00] else t.payload } 2

/-- R184: a data record with two or more payload bytes comes back without its first payload byte, whatever that byte is. -/
def Obligations.LongRecordLosesItsFirstByte : Prop :=
  ∀ (t : Tpdu) (p r : Byte) (rest : List Byte), isControlKind t.kind = false → t.payload = p :: r :: rest →
    ∃ frame, EncodesTo t frame ∧
      DecodesTo frame { t with seq := t.seq % 16, ctl := 0, payload := r :: rest } (3 + rest.length)

/-- R186: encoding a decoded frame. A control or short frame comes back; a long frame comes back one octet shorter, its padding and
the top 2 bits of its first payload byte lost. -/
def Obligations.ReencodingADecodedFrame : Prop :=
  (∀ h : Byte, kindMux (extPt h) = .control → ∃ t, DecodesTo [h] t 1 ∧ EncodesTo t [h]) ∧
  (∀ h c : Byte, kindMux (extPt h) = .data → ∃ t, DecodesTo [h, c] t 2 ∧ EncodesTo t [h, c]) ∧
  (∀ (h c p : Byte) (rest : List Byte), kindMux (extPt h) = .data →
    ∃ t, DecodesTo (h :: c :: p :: rest) t (3 + rest.length) ∧
      EncodesTo t (h :: ((c &&& 0xC0) ||| (p &&& 0x3F)) :: rest))

/-- R99: `ENCODE_PADDED` of a data record with a payload `P`, followed by a DECODE, gives exactly `P`, from a long frame of
`2 + P.len` octets. -/
def Obligations.PaddedRecordKeepsItsPayload : Prop :=
  ∀ t : Tpdu, isControlKind t.kind = false → t.payload ≠ [] →
    ∃ frame, EncodesTo (encodePaddedRequest t).tpdu frame ∧ frame.length = 2 + t.payload.length ∧
      DecodesTo frame { t with seq := t.seq % 16, ctl := 0 } frame.length

/-- The code tables of R88, R90 and R200. The numbers are the spec's decisions D1, D2 and D5. -/
def Obligations.CodeTablesFollowTheSpec : Prop :=
  ([PacketKind.udp, .ndp, .ucd, .ncd].map (fun k => k.code.toNat) = [0, 1, 2, 3]) ∧
  ([ServiceCode.groupValueRead, .groupValueResponse, .groupValueWrite, .individualAddrWrite, .individualAddrRequest,
    .individualAddrResponse, .adcRead, .adcResponse, .memoryRead, .memoryResponse, .memoryWrite, .userMessage,
    .maskVersionRead, .maskVersionResponse, .restart, .escape].map (fun c => c.code.toNat) = List.range 16) ∧
  ([Status.ok, .truncatedInput, .dataUnitTooShort, .ioFailure].map (fun c => c.code.toNat) = [0, 1, 2, 3]) ∧
  (∀ k : PacketKind, PacketKind.ofCode k.code = k ∧ isControlKind k.code = decide (k = .ucd ∨ k = .ncd) ∧
    isNumberedKind k.code = decide (k = .ndp ∨ k = .ncd))

/-! ### A sink that never answers, what no step changes, and the stream an operation does not use -/

/-- An ENCODE whose sink never answers stays as it is, with its header in `HDR`, the whole frame in `OBUF` and 0 in `RES_CONSUMED`: no
`PHASE` change, no status. R237 and R54 say that it never ends, and R170's order that the frame is built and the count written before
the sink write. That it is left so is the model's reading (log entry 11, DEDUCED). The host cannot read the count before the
operation ends (R37): `ResultReadFaultsWithoutValue`. -/
def Obligations.EncodeHangsAtItsSink : Prop :=
  ∀ s : State, s.req.latched → s.req.op = .holding .encode → s.snk.answer = .stall →
    ∃ i b rest, Presents s i ∧ EncodesTo (latchedTpdu s) (b :: rest) ∧
      exec i s = .next { s with
        work := { s.work with hdr := .holding b, obuf := .holding (b :: rest) }
        res := { s.res with consumed := .holding 0 } }

/-- No step changes the widths of the ports or the length limits: they are parameters (R6, R25, D9, D17; log entries 4 and 5). While an operation is BUSY, the model's
note of where it started stays (log entry 21), so that D8's range starts there whatever happens to the source meanwhile. -/
def Obligations.StepKeepsParametersAndStart : Prop :=
  ∀ s t : State, step s = .next t → t.ports = s.ports ∧ t.limits = s.limits ∧ (s.phase = .busy → t.opStart = s.opStart)

/-- An access of another agent, while BUSY, to the stream that the operation does not use: a drain of the source during an ENCODE,
and a write of the sink during a DECODE. It has its own effect and nothing else changes: it takes a step of its own, in which the
operation does not run. That such an access is not refused is the model's reading of R70 and D16 (log entry 12, DEDUCED, unsafe); the
bound of the drain is log entry 19 (DESIGN CHOICE). -/
def Obligations.AccessToTheOtherStreamHasItsEffect : Prop :=
  (∀ (s : State) (n : Nat) (later : List HostEvent), s.phase = .busy → s.req.op = .holding .encode →
    s.host = .takeFromSource n :: later →
    ∃ t, step s = .next t ∧ srcBytes t = (srcBytes s).drop n ∧
      t = { s with src := { s.src with pos := t.src.pos }, host := later }) ∧
  (∀ (s : State) (bytes : List Byte) (later : List HostEvent), s.phase = .busy → s.req.op = .holding .decode →
    s.host = .writeToSink bytes :: later →
    step s = .next { s with snk := { s.snk with content := s.snk.content ++ bytes }, host := later })

/-! ### The length limits (R6, D17) -/

/-- An input beyond a limit that is given is refused by name, and is no shorter input (D17, I11): an ENCODE request with a payload
longer than `MAX_PAYLOAD`, when it is presented; and a DECODE whose source delivers it more octets than `MAX_FRAME`, when it would run.
A DECODE of a control frame is delivered one octet, whatever follows it (R152). D17 and I11 leave it to the model to refuse; that it
does, and when, is the model's choice (log entry 5, DESIGN CHOICE). -/
def Obligations.InputsBeyondTheLimitsAreRefused : Prop :=
  (∀ (s : State) (r : Request) (later : List HostEvent) (m : Nat), s.phase = .idle → s.host = .request r :: later →
    r.op = .encode → s.limits.maxPayload = some m → m < r.tpdu.payload.length → step s = .refused .payloadTooLong) ∧
  (∀ (s : State) (m : Nat), s.phase = .busy → s.req.op = .holding .decode → HostLetsRun s → s.limits.maxFrame = some m →
    (s.work.hdr.valid = true → m < 1 + (srcBytes s).length → step s = .refused .frameTooLong) ∧
    (∀ h rest, HeaderAhead s h rest →
      (kindMux (extPt h) = .control → m < 1 → step s = .refused .frameTooLong) ∧
      (kindMux (extPt h) = .data → m < 1 + rest.length → step s = .refused .frameTooLong)))

/-- The limits refuse and never truncate (D17), and no result depends on them (R6: every rule holds for every value of the two): a
step of a block with any limits is refused by the name of a limit, or it is the step that the same block without limits makes. -/
def Obligations.LimitsRefuseAndNeverTruncate : Prop :=
  ∀ (s : State) (l : LengthLimits),
    step { s with limits := l } = .refused .frameTooLong ∨ step { s with limits := l } = .refused .payloadTooLong ∨
    step { s with limits := l } = underLimits l (step { s with limits := ⟨none, none⟩ })
end

