-- ==== Sys2Proof/Laws/State.lean ====
section
/-! SUPPORT. One lemma for each field of the state after each update of it, true by rfl, so that no proof unfolds an update. -/

namespace Sys2Proof.Machine

variable {α : Type}

@[simp] theorem Latch.holding_value (v : α) : (Latch.holding v).value = v := rfl
@[simp] theorem Latch.holding_valid (v : α) : (Latch.holding v).valid = true := rfl
@[simp] theorem Latch.void_valid [Inhabited α] : (Latch.void : Latch α).valid = false := rfl
@[simp] theorem Latch.void_value [Inhabited α] : (Latch.void : Latch α).value = default := rfl

/-- Two registers that hold a value are equal exactly when their values are. -/
@[simp] theorem Latch.holding_inj (v w : α) : (Latch.holding v = Latch.holding w) ↔ v = w := by simp [Latch.holding]

/-- A register that holds no value is not one that holds one. -/
@[simp] theorem Latch.void_ne_holding [Inhabited α] (v : α) : (Latch.void : Latch α) ≠ Latch.holding v := by
  simp [Latch.void, Latch.holding]

@[simp] theorem PortWord.ofNat_width (w n : Nat) : (PortWord.ofNat w n).width = w := rfl
@[simp] theorem PortWord.ofNat_toNat (w n : Nat) : (PortWord.ofNat w n).toNat = n % 2 ^ w := by
  simp [PortWord.ofNat, PortWord.toNat]

@[simp] theorem ReqRegs.latch_op (p : PortWidths) (r : Request) : (ReqRegs.latch p r).op = .holding r.op := rfl
@[simp] theorem ReqRegs.latch_kind (p : PortWidths) (r : Request) : (ReqRegs.latch p r).kind = .holding r.tpdu.kind := rfl
@[simp] theorem ReqRegs.latch_seq (p : PortWidths) (r : Request) :
    (ReqRegs.latch p r).seq = .holding (.ofNat p.seqW r.tpdu.seq) := rfl
@[simp] theorem ReqRegs.latch_ctl (p : PortWidths) (r : Request) :
    (ReqRegs.latch p r).ctl = .holding (.ofNat p.ctlW r.tpdu.ctl) := rfl
@[simp] theorem ReqRegs.latch_sc (p : PortWidths) (r : Request) : (ReqRegs.latch p r).sc = .holding r.tpdu.sc := rfl
@[simp] theorem ReqRegs.latch_payload (p : PortWidths) (r : Request) :
    (ReqRegs.latch p r).payload = .holding r.tpdu.payload := rfl

/-- A register whose bit is set holds the value in it. -/
theorem Latch.eq_holding {r : Latch α} (h : r.valid = true) : r = .holding r.value := by
  cases r; simp_all [Latch.holding]

@[simp] theorem advanceSrc_phase (n : Nat) (s : State) : (advanceSrc n s).phase = s.phase := rfl
@[simp] theorem advanceSrc_ports (n : Nat) (s : State) : (advanceSrc n s).ports = s.ports := rfl
@[simp] theorem advanceSrc_limits (n : Nat) (s : State) : (advanceSrc n s).limits = s.limits := rfl
@[simp] theorem advanceSrc_opStart (n : Nat) (s : State) : (advanceSrc n s).opStart = s.opStart := rfl
@[simp] theorem advanceSrc_req (n : Nat) (s : State) : (advanceSrc n s).req = s.req := rfl
@[simp] theorem advanceSrc_work (n : Nat) (s : State) : (advanceSrc n s).work = s.work := rfl
@[simp] theorem advanceSrc_res (n : Nat) (s : State) : (advanceSrc n s).res = s.res := rfl
@[simp] theorem advanceSrc_src (n : Nat) (s : State) : (advanceSrc n s).src = { s.src with pos := s.src.pos + n } := rfl
@[simp] theorem advanceSrc_snk (n : Nat) (s : State) : (advanceSrc n s).snk = s.snk := rfl
@[simp] theorem advanceSrc_draws (n : Nat) (s : State) : (advanceSrc n s).draws = s.draws := rfl
@[simp] theorem advanceSrc_host (n : Nat) (s : State) : (advanceSrc n s).host = s.host := rfl

@[simp] theorem countDraw_phase (s : State) : (countDraw s).phase = s.phase := rfl
@[simp] theorem countDraw_ports (s : State) : (countDraw s).ports = s.ports := rfl
@[simp] theorem countDraw_limits (s : State) : (countDraw s).limits = s.limits := rfl
@[simp] theorem countDraw_opStart (s : State) : (countDraw s).opStart = s.opStart := rfl
@[simp] theorem countDraw_req (s : State) : (countDraw s).req = s.req := rfl
@[simp] theorem countDraw_work (s : State) : (countDraw s).work = s.work := rfl
@[simp] theorem countDraw_res (s : State) : (countDraw s).res = s.res := rfl
@[simp] theorem countDraw_src (s : State) : (countDraw s).src = s.src := rfl
@[simp] theorem countDraw_snk (s : State) : (countDraw s).snk = s.snk := rfl
@[simp] theorem countDraw_draws (s : State) : (countDraw s).draws = s.draws + 1 := rfl
@[simp] theorem countDraw_host (s : State) : (countDraw s).host = s.host := rfl

@[simp] theorem writeHdr_phase (b : Byte) (s : State) : (writeHdr b s).phase = s.phase := rfl
@[simp] theorem writeHdr_ports (b : Byte) (s : State) : (writeHdr b s).ports = s.ports := rfl
@[simp] theorem writeHdr_limits (b : Byte) (s : State) : (writeHdr b s).limits = s.limits := rfl
@[simp] theorem writeHdr_opStart (b : Byte) (s : State) : (writeHdr b s).opStart = s.opStart := rfl
@[simp] theorem writeHdr_req (b : Byte) (s : State) : (writeHdr b s).req = s.req := rfl
@[simp] theorem writeHdr_work (b : Byte) (s : State) : (writeHdr b s).work = { s.work with hdr := .holding b } := rfl
@[simp] theorem writeHdr_res (b : Byte) (s : State) : (writeHdr b s).res = s.res := rfl
@[simp] theorem writeHdr_src (b : Byte) (s : State) : (writeHdr b s).src = s.src := rfl
@[simp] theorem writeHdr_snk (b : Byte) (s : State) : (writeHdr b s).snk = s.snk := rfl
@[simp] theorem writeHdr_draws (b : Byte) (s : State) : (writeHdr b s).draws = s.draws := rfl
@[simp] theorem writeHdr_host (b : Byte) (s : State) : (writeHdr b s).host = s.host := rfl

@[simp] theorem writeCbuf_phase (bytes : List Byte) (s : State) : (writeCbuf bytes s).phase = s.phase := rfl
@[simp] theorem writeCbuf_ports (bytes : List Byte) (s : State) : (writeCbuf bytes s).ports = s.ports := rfl
@[simp] theorem writeCbuf_limits (bytes : List Byte) (s : State) : (writeCbuf bytes s).limits = s.limits := rfl
@[simp] theorem writeCbuf_opStart (bytes : List Byte) (s : State) : (writeCbuf bytes s).opStart = s.opStart := rfl
@[simp] theorem writeCbuf_req (bytes : List Byte) (s : State) : (writeCbuf bytes s).req = s.req := rfl
@[simp] theorem writeCbuf_work (bytes : List Byte) (s : State) : (writeCbuf bytes s).work = { s.work with cbuf := .holding bytes } := rfl
@[simp] theorem writeCbuf_res (bytes : List Byte) (s : State) : (writeCbuf bytes s).res = s.res := rfl
@[simp] theorem writeCbuf_src (bytes : List Byte) (s : State) : (writeCbuf bytes s).src = s.src := rfl
@[simp] theorem writeCbuf_snk (bytes : List Byte) (s : State) : (writeCbuf bytes s).snk = s.snk := rfl
@[simp] theorem writeCbuf_draws (bytes : List Byte) (s : State) : (writeCbuf bytes s).draws = s.draws := rfl
@[simp] theorem writeCbuf_host (bytes : List Byte) (s : State) : (writeCbuf bytes s).host = s.host := rfl

@[simp] theorem writeObuf_phase (bytes : List Byte) (s : State) : (writeObuf bytes s).phase = s.phase := rfl
@[simp] theorem writeObuf_ports (bytes : List Byte) (s : State) : (writeObuf bytes s).ports = s.ports := rfl
@[simp] theorem writeObuf_limits (bytes : List Byte) (s : State) : (writeObuf bytes s).limits = s.limits := rfl
@[simp] theorem writeObuf_opStart (bytes : List Byte) (s : State) : (writeObuf bytes s).opStart = s.opStart := rfl
@[simp] theorem writeObuf_req (bytes : List Byte) (s : State) : (writeObuf bytes s).req = s.req := rfl
@[simp] theorem writeObuf_work (bytes : List Byte) (s : State) : (writeObuf bytes s).work = { s.work with obuf := .holding bytes } := rfl
@[simp] theorem writeObuf_res (bytes : List Byte) (s : State) : (writeObuf bytes s).res = s.res := rfl
@[simp] theorem writeObuf_src (bytes : List Byte) (s : State) : (writeObuf bytes s).src = s.src := rfl
@[simp] theorem writeObuf_snk (bytes : List Byte) (s : State) : (writeObuf bytes s).snk = s.snk := rfl
@[simp] theorem writeObuf_draws (bytes : List Byte) (s : State) : (writeObuf bytes s).draws = s.draws := rfl
@[simp] theorem writeObuf_host (bytes : List Byte) (s : State) : (writeObuf bytes s).host = s.host := rfl

@[simp] theorem writeConsumed_phase (n : Nat) (s : State) : (writeConsumed n s).phase = s.phase := rfl
@[simp] theorem writeConsumed_ports (n : Nat) (s : State) : (writeConsumed n s).ports = s.ports := rfl
@[simp] theorem writeConsumed_limits (n : Nat) (s : State) : (writeConsumed n s).limits = s.limits := rfl
@[simp] theorem writeConsumed_opStart (n : Nat) (s : State) : (writeConsumed n s).opStart = s.opStart := rfl
@[simp] theorem writeConsumed_req (n : Nat) (s : State) : (writeConsumed n s).req = s.req := rfl
@[simp] theorem writeConsumed_work (n : Nat) (s : State) : (writeConsumed n s).work = s.work := rfl
@[simp] theorem writeConsumed_res (n : Nat) (s : State) : (writeConsumed n s).res = { s.res with consumed := .holding n } := rfl
@[simp] theorem writeConsumed_src (n : Nat) (s : State) : (writeConsumed n s).src = s.src := rfl
@[simp] theorem writeConsumed_snk (n : Nat) (s : State) : (writeConsumed n s).snk = s.snk := rfl
@[simp] theorem writeConsumed_draws (n : Nat) (s : State) : (writeConsumed n s).draws = s.draws := rfl
@[simp] theorem writeConsumed_host (n : Nat) (s : State) : (writeConsumed n s).host = s.host := rfl

@[simp] theorem acceptRequest_phase (r : Request) (s : State) : (acceptRequest r s).phase = .busy := rfl
@[simp] theorem acceptRequest_ports (r : Request) (s : State) : (acceptRequest r s).ports = s.ports := rfl
@[simp] theorem acceptRequest_limits (r : Request) (s : State) : (acceptRequest r s).limits = s.limits := rfl
@[simp] theorem acceptRequest_opStart (r : Request) (s : State) : (acceptRequest r s).opStart = s.src.pos := rfl
@[simp] theorem acceptRequest_req (r : Request) (s : State) : (acceptRequest r s).req = .latch s.ports r := rfl
@[simp] theorem acceptRequest_work (r : Request) (s : State) : (acceptRequest r s).work = .void := rfl
@[simp] theorem acceptRequest_res (r : Request) (s : State) : (acceptRequest r s).res = .void := rfl
@[simp] theorem acceptRequest_src (r : Request) (s : State) : (acceptRequest r s).src = s.src := rfl
@[simp] theorem acceptRequest_snk (r : Request) (s : State) : (acceptRequest r s).snk = s.snk := rfl
@[simp] theorem acceptRequest_draws (r : Request) (s : State) : (acceptRequest r s).draws = s.draws := rfl
@[simp] theorem acceptRequest_host (r : Request) (s : State) : (acceptRequest r s).host = s.host := rfl

@[simp] theorem resetBlock_phase (s : State) : (resetBlock s).phase = .idle := rfl
@[simp] theorem resetBlock_ports (s : State) : (resetBlock s).ports = s.ports := rfl
@[simp] theorem resetBlock_limits (s : State) : (resetBlock s).limits = s.limits := rfl
@[simp] theorem resetBlock_opStart (s : State) : (resetBlock s).opStart = s.opStart := rfl
@[simp] theorem resetBlock_req (s : State) : (resetBlock s).req = .void s.ports := rfl
@[simp] theorem resetBlock_work (s : State) : (resetBlock s).work = .void := rfl
@[simp] theorem resetBlock_res (s : State) : (resetBlock s).res = .void := rfl
@[simp] theorem resetBlock_src (s : State) : (resetBlock s).src = s.src := rfl
@[simp] theorem resetBlock_snk (s : State) : (resetBlock s).snk = s.snk := rfl
@[simp] theorem resetBlock_draws (s : State) : (resetBlock s).draws = s.draws := rfl
@[simp] theorem resetBlock_host (s : State) : (resetBlock s).host = s.host := rfl

@[simp] theorem endOperation_phase (r : ResRegs) (s : State) : (endOperation r s).phase = .idle := rfl
@[simp] theorem endOperation_ports (r : ResRegs) (s : State) : (endOperation r s).ports = s.ports := rfl
@[simp] theorem endOperation_limits (r : ResRegs) (s : State) : (endOperation r s).limits = s.limits := rfl
@[simp] theorem endOperation_opStart (r : ResRegs) (s : State) : (endOperation r s).opStart = s.opStart := rfl
@[simp] theorem endOperation_req (r : ResRegs) (s : State) : (endOperation r s).req = s.req := rfl
@[simp] theorem endOperation_work (r : ResRegs) (s : State) :
    (endOperation r s).work = { s.work with cbuf := .void, obuf := .void } := rfl
@[simp] theorem endOperation_res (r : ResRegs) (s : State) : (endOperation r s).res = r := rfl
@[simp] theorem endOperation_src (r : ResRegs) (s : State) : (endOperation r s).src = s.src := rfl
@[simp] theorem endOperation_snk (r : ResRegs) (s : State) : (endOperation r s).snk = s.snk := rfl
@[simp] theorem endOperation_draws (r : ResRegs) (s : State) : (endOperation r s).draws = s.draws := rfl
@[simp] theorem endOperation_host (r : ResRegs) (s : State) : (endOperation r s).host = s.host := rfl

/-- The end of an operation does not keep what it wrote into a buffer (R69). -/
@[simp] theorem endOperation_writeCbuf (r : ResRegs) (bytes : List Byte) (s : State) :
    endOperation r (writeCbuf bytes s) = endOperation r s := rfl
@[simp] theorem endOperation_writeObuf (r : ResRegs) (bytes : List Byte) (s : State) :
    endOperation r (writeObuf bytes s) = endOperation r s := rfl

/-- The end of an operation writes every result register, the count among them (R29, R200). -/
@[simp] theorem endOperation_writeConsumed (r : ResRegs) (n : Nat) (s : State) :
    endOperation r (writeConsumed n s) = endOperation r s := rfl

@[simp] theorem takeFromSource_phase (n : Nat) (s : State) : (takeFromSource n s).phase = s.phase := rfl
@[simp] theorem takeFromSource_ports (n : Nat) (s : State) : (takeFromSource n s).ports = s.ports := rfl
@[simp] theorem takeFromSource_limits (n : Nat) (s : State) : (takeFromSource n s).limits = s.limits := rfl
@[simp] theorem takeFromSource_opStart (n : Nat) (s : State) : (takeFromSource n s).opStart = s.opStart := rfl
@[simp] theorem takeFromSource_req (n : Nat) (s : State) : (takeFromSource n s).req = s.req := rfl
@[simp] theorem takeFromSource_work (n : Nat) (s : State) : (takeFromSource n s).work = s.work := rfl
@[simp] theorem takeFromSource_res (n : Nat) (s : State) : (takeFromSource n s).res = s.res := rfl
@[simp] theorem takeFromSource_src (n : Nat) (s : State) : (takeFromSource n s).src = { s.src with pos := s.src.pos + min n (srcBytes s).length } := rfl
@[simp] theorem takeFromSource_snk (n : Nat) (s : State) : (takeFromSource n s).snk = s.snk := rfl
@[simp] theorem takeFromSource_draws (n : Nat) (s : State) : (takeFromSource n s).draws = s.draws := rfl
@[simp] theorem takeFromSource_host (n : Nat) (s : State) : (takeFromSource n s).host = s.host := rfl

@[simp] theorem writeToSink_phase (bytes : List Byte) (s : State) : (writeToSink bytes s).phase = s.phase := rfl
@[simp] theorem writeToSink_ports (bytes : List Byte) (s : State) : (writeToSink bytes s).ports = s.ports := rfl
@[simp] theorem writeToSink_limits (bytes : List Byte) (s : State) : (writeToSink bytes s).limits = s.limits := rfl
@[simp] theorem writeToSink_opStart (bytes : List Byte) (s : State) : (writeToSink bytes s).opStart = s.opStart := rfl
@[simp] theorem writeToSink_req (bytes : List Byte) (s : State) : (writeToSink bytes s).req = s.req := rfl
@[simp] theorem writeToSink_work (bytes : List Byte) (s : State) : (writeToSink bytes s).work = s.work := rfl
@[simp] theorem writeToSink_res (bytes : List Byte) (s : State) : (writeToSink bytes s).res = s.res := rfl
@[simp] theorem writeToSink_src (bytes : List Byte) (s : State) : (writeToSink bytes s).src = s.src := rfl
@[simp] theorem writeToSink_snk (bytes : List Byte) (s : State) : (writeToSink bytes s).snk = { s.snk with content := s.snk.content ++ bytes } := rfl
@[simp] theorem writeToSink_draws (bytes : List Byte) (s : State) : (writeToSink bytes s).draws = s.draws := rfl
@[simp] theorem writeToSink_host (bytes : List Byte) (s : State) : (writeToSink bytes s).host = s.host := rfl

@[simp] theorem afterHeader_phase (h : Byte) (s : State) : (afterHeader h s).phase = s.phase := rfl
@[simp] theorem afterHeader_ports (h : Byte) (s : State) : (afterHeader h s).ports = s.ports := rfl
@[simp] theorem afterHeader_limits (h : Byte) (s : State) : (afterHeader h s).limits = s.limits := rfl
@[simp] theorem afterHeader_opStart (h : Byte) (s : State) : (afterHeader h s).opStart = s.opStart := rfl
@[simp] theorem afterHeader_req (h : Byte) (s : State) : (afterHeader h s).req = s.req := rfl
@[simp] theorem afterHeader_work (h : Byte) (s : State) : (afterHeader h s).work = { s.work with hdr := .holding h } := rfl
@[simp] theorem afterHeader_res (h : Byte) (s : State) : (afterHeader h s).res = s.res := rfl
@[simp] theorem afterHeader_src (h : Byte) (s : State) : (afterHeader h s).src = { s.src with pos := s.src.pos + 1 } := rfl
@[simp] theorem afterHeader_snk (h : Byte) (s : State) : (afterHeader h s).snk = s.snk := rfl
@[simp] theorem afterHeader_draws (h : Byte) (s : State) : (afterHeader h s).draws = s.draws := rfl
@[simp] theorem afterHeader_host (h : Byte) (s : State) : (afterHeader h s).host = s.host := rfl

@[simp] theorem startFrame_phase (h : Byte) (s : State) : (startFrame h s).phase = s.phase := rfl
@[simp] theorem startFrame_ports (h : Byte) (s : State) : (startFrame h s).ports = s.ports := rfl
@[simp] theorem startFrame_limits (h : Byte) (s : State) : (startFrame h s).limits = s.limits := rfl
@[simp] theorem startFrame_opStart (h : Byte) (s : State) : (startFrame h s).opStart = s.opStart := rfl
@[simp] theorem startFrame_req (h : Byte) (s : State) : (startFrame h s).req = s.req := rfl
@[simp] theorem startFrame_work (h : Byte) (s : State) : (startFrame h s).work = { s.work with hdr := .holding h, obuf := .holding [h] } := rfl
@[simp] theorem startFrame_res (h : Byte) (s : State) : (startFrame h s).res = s.res := rfl
@[simp] theorem startFrame_src (h : Byte) (s : State) : (startFrame h s).src = s.src := rfl
@[simp] theorem startFrame_snk (h : Byte) (s : State) : (startFrame h s).snk = s.snk := rfl
@[simp] theorem startFrame_draws (h : Byte) (s : State) : (startFrame h s).draws = s.draws := rfl
@[simp] theorem startFrame_host (h : Byte) (s : State) : (startFrame h s).host = s.host := rfl

@[simp] theorem abandonOperation_phase (s : State) : (abandonOperation s).phase = .idle := rfl
@[simp] theorem abandonOperation_ports (s : State) : (abandonOperation s).ports = s.ports := rfl
@[simp] theorem abandonOperation_limits (s : State) : (abandonOperation s).limits = s.limits := rfl
@[simp] theorem abandonOperation_opStart (s : State) : (abandonOperation s).opStart = s.opStart := rfl
@[simp] theorem abandonOperation_req (s : State) : (abandonOperation s).req = .void s.ports := rfl
@[simp] theorem abandonOperation_work (s : State) : (abandonOperation s).work = .void := rfl
@[simp] theorem abandonOperation_res (s : State) : (abandonOperation s).res = .void := rfl
@[simp] theorem abandonOperation_draws (s : State) : (abandonOperation s).draws = s.draws + 1 := rfl
@[simp] theorem abandonOperation_host (s : State) : (abandonOperation s).host = s.host := rfl
@[simp] theorem abandonOperation_octets (s : State) : (abandonOperation s).src.octets = s.src.octets := rfl
@[simp] theorem abandonOperation_term (s : State) : (abandonOperation s).src.term = s.src.term := rfl
@[simp] theorem abandonOperation_answer (s : State) : (abandonOperation s).snk.answer = s.snk.answer := rfl
@[simp] theorem abandonOperation_content (s : State) :
    (abandonOperation s).snk.content = contentAfterAbandon s := rfl

@[simp] theorem noRecord_status (st : Status) (n : Nat) : (ResRegs.noRecord st n).status = .holding st.code := rfl
@[simp] theorem noRecord_consumed (st : Status) (n : Nat) : (ResRegs.noRecord st n).consumed = .holding n := rfl
@[simp] theorem noRecord_recordSomewhere (st : Status) (n : Nat) : ¬ (ResRegs.noRecord st n).recordSomewhere := by
  simp [ResRegs.noRecord, ResRegs.void, ResRegs.recordSomewhere]
@[simp] theorem void_recordSomewhere : ¬ ResRegs.void.recordSomewhere := by simp [ResRegs.void, ResRegs.recordSomewhere]
@[simp] theorem void_status : ResRegs.void.status = .void := rfl
@[simp] theorem void_consumed : ResRegs.void.consumed = .void := rfl

end Sys2Proof.Machine
end

