-- ==== Sys2Proof/Laws/Operands.lean ====
section
/-! SUPPORT. Small lemmas of the sub-blocks: the multiplexer in terms of bit 1, the routers by their lengths, the packer on
words of any width, and what the decoder gives on a built dispatch word. -/

namespace Sys2Proof.Machine

theorem bitVec2_cases (k : BitVec 2) : k = 0b00#2 ∨ k = 0b01#2 ∨ k = 0b10#2 ∨ k = 0b11#2 := by
  revert k; decide

/-- The multiplexer sends exactly the control kinds down the control path (R89, R119). -/
theorem kindMux_eq (k : BitVec 2) : kindMux k = if isControlKind k then .control else .data := by
  revert k; decide

theorem data_cases {k : BitVec 2} (h : kindMux k = .data) : k = 0b00#2 ∨ k = 0b01#2 := by
  revert k; decide

theorem control_cases {k : BitVec 2} (h : kindMux k = .control) : k = 0b10#2 ∨ k = 0b11#2 := by
  revert k; decide

@[simp] theorem routeDec_zero : routeDec 0 = .tooShort := rfl
@[simp] theorem routeDec_one : routeDec 1 = .short := rfl
@[simp] theorem routeDec_two_add (n : Nat) : routeDec (n + 2) = .long := rfl
@[simp] theorem routeEnc_zero : routeEnc 0 = .empty := rfl
@[simp] theorem routeEnc_succ (n : Nat) : routeEnc (n + 1) = .copy := rfl

/-- A header octet is its three fields, side by side (R81). -/
theorem header_fields (h : Byte) : h = extPt h ++ extSeq h ++ extLow2 h := by
  revert h; decide

/-- The header of a record depends only on the bits its fields take (R116, R171). -/
theorem packHeader_truncated {a b c : Nat} (k : BitVec a) (s : BitVec b) (l : BitVec c) :
    packHeader k s l = packHeader (k.setWidth 2) (s.setWidth 4) (l.setWidth 2) := by
  unfold packHeader
  ext i hi
  simp
  interval_cases i <;> simp

/-- A port's word goes into the header as the low bits of its number. -/
theorem packHeader_port {b : Nat} (k : BitVec 2) (q : PortWord) (l : BitVec b) :
    packHeader k q.bits l = packHeader k (BitVec.ofNat 4 q.toNat) (l.setWidth 2) := by
  rw [packHeader_truncated]
  simp [PortWord.toNat]

/-- The same for the control port. -/
theorem packHeader_ports (k : BitVec 2) (q c : PortWord) :
    packHeader k q.bits c.bits = packHeader k (BitVec.ofNat 4 q.toNat) (BitVec.ofNat 2 c.toNat) := by
  rw [packHeader_port]
  simp [PortWord.toNat]

/-! What the decoder gives on each word the machine builds. -/

/-- A DECODE word with `RC = 00`: the control form, or the form without a continuation (R97). -/
theorem decode_restClass0 (h : Byte) :
    decode (dispatchWord 1 0b00 0 h) = .ok (match PacketKind.ofCode (extPt h) with
      | .udp => .decodeUdpNocont (extSeq h) (extLow2 h)
      | .ndp => .decodeNdpNocont (extSeq h) (extLow2 h)
      | .ucd => .decodeUcd (extSeq h) (extLow2 h)
      | .ncd => .decodeNcd (extSeq h) (extLow2 h)) := by
  revert h; decide

/-- A DECODE word with `RC = 01`: the short form of a data kind (R97; a control row ignores `RC`). -/
theorem decode_restClass1 (h : Byte) :
    decode (dispatchWord 1 0b01 0 h) = .ok (match PacketKind.ofCode (extPt h) with
      | .udp => .decodeUdpShort (extSeq h) (extLow2 h)
      | .ndp => .decodeNdpShort (extSeq h) (extLow2 h)
      | .ucd => .decodeUcd (extSeq h) (extLow2 h)
      | .ncd => .decodeNcd (extSeq h) (extLow2 h)) := by
  revert h; decide

/-- A DECODE word with `RC = 10`: the long form of a data kind (R97; a control row ignores `RC`). -/
theorem decode_restClass2 (h : Byte) :
    decode (dispatchWord 1 0b10 0 h) = .ok (match PacketKind.ofCode (extPt h) with
      | .udp => .decodeUdpLong (extSeq h) (extLow2 h)
      | .ndp => .decodeNdpLong (extSeq h) (extLow2 h)
      | .ucd => .decodeUcd (extSeq h) (extLow2 h)
      | .ncd => .decodeNcd (extSeq h) (extLow2 h)) := by
  revert h; decide

/-- A DECODE word without a header (R97). -/
theorem decode_noHeader : decode (dispatchWord 0 0b00 0 0) = .ok .decodeNohdr := by decide

/-- An ENCODE word with `RC = 00` (R97). -/
theorem decode_payloadClass0 (k : BitVec 2) :
    decode (dispatchWord 1 0b00 1 (k ++ 0#6)) = .ok (match PacketKind.ofCode k with
      | .udp => .encodeUdpEmpty
      | .ndp => .encodeNdpEmpty
      | .ucd => .encodeUcd
      | .ncd => .encodeNcd) := by
  revert k; decide

/-- An ENCODE word with `RC = 01` (R97). -/
theorem decode_payloadClass1 (k : BitVec 2) :
    decode (dispatchWord 1 0b01 1 (k ++ 0#6)) = .ok (match PacketKind.ofCode k with
      | .udp => .encodeUdpPayload
      | .ndp => .encodeNdpPayload
      | .ucd => .encodeUcd
      | .ncd => .encodeNcd) := by
  revert k; decide

end Sys2Proof.Machine
end

