-- ==== Sys2Proof/Laws/Ops.lean ====
section
/-! SUPPORT. For each shared operation, what it does in each of its cases. Provers cite these and do not unfold the operation. -/

namespace Sys2Proof.Machine

/-! ### Register and buffer reads -/

theorem readReg_valid {α : Type} {n : RegName} {r : Latch α} {k : α → Result} (h : r.valid = true) :
    readReg n r k = k r.value := by simp [readReg, h]

@[simp] theorem readReg_holding {α : Type} (n : RegName) (v : α) (k : α → Result) :
    readReg n (.holding v) k = k v := rfl

/-- A register read that answers a next state found a value, and went on with it. -/
theorem readReg_next {α : Type} {n : RegName} {r : Latch α} {k : α → Result} {t : State}
    (h : readReg n r k = .next t) : r.valid = true ∧ k r.value = .next t := by
  unfold readReg at h
  split at h
  · exact ⟨‹_›, h⟩
  · cases h

/-- The host can read a result register exactly when it holds a value and no operation is in progress (R33, R37). -/
theorem readable_eq_true {r : ResultReg} {s : State} : readable r s = true ↔ s.phase = .idle ∧ s.res.holds r = true := by
  unfold readable; cases s.phase <;> simp

theorem readable_idle {r : ResultReg} {s : State} (h : s.phase = .idle) : readable r s = s.res.holds r := by
  simp [readable, h]

theorem readable_busy {r : ResultReg} {s : State} (h : s.phase = .busy) : readable r s = false := by
  simp [readable, h]

/-- A buffer read that answers a next state found a byte, and went on with it. -/
theorem memRead_next {b : Buffer} {i : Nat} {s t : State} {k : Byte → Result} (h : memRead b i s k = .next t) :
    ∃ c, (bufferReg b s).valid = true ∧ (bufferReg b s).value[i]? = some c ∧ k c = .next t := by
  obtain ⟨hv, h⟩ := readReg_next h
  split at h
  · exact ⟨_, hv, ‹_›, h⟩
  · cases h

/-- `MemRead(CBUF, 0, 1)` of a buffer just written with a first octet `c`. -/
@[simp] theorem memRead_cbuf_cons (c : Byte) (rest : List Byte) (s : State) (k : Byte → Result) :
    memRead .cbuf 0 (writeCbuf (c :: rest) s) k = k c := rfl

/-- `MemRead(OBUF, 1, 1)` of a frame in the making. -/
@[simp] theorem memRead_obuf_frame (h c : Byte) (rest : List Byte) (s : State) (k : Byte → Result) :
    memRead .obuf 1 (writeObuf (h :: c :: rest) s) k = k c := rfl

/-- `MemWrite(OBUF, 1, 1, v)` of a frame in the making. -/
@[simp] theorem memWrite_obuf_frame (h c v : Byte) (rest : List Byte) (s : State) (k : State → Result) :
    memWrite 1 v (writeObuf (h :: c :: rest) s) k = k (writeObuf (h :: v :: rest) s) := by
  simp [memWrite, writeObuf]

/-- A buffer write that answers a next state was inside the buffer, and went on with the byte replaced. -/
theorem memWrite_next {i : Nat} {v : Byte} {s t : State} {k : State → Result} (h : memWrite i v s k = .next t) :
    i < s.work.obuf.value.length ∧ k (writeObuf (s.work.obuf.value.set i v) s) = .next t := by
  obtain ⟨-, h⟩ := readReg_next h
  split at h
  · exact ⟨‹_›, h⟩
  · cases h

/-! ### Ending an operation -/

@[simp] theorem raise_eq (st : Status) (n : Nat) (s : State) :
    raise st n s = .next (endOperation (.noRecord st n) s) := rfl

@[simp] theorem finishEncode_eq (s : State) :
    finishEncode s = .next (endOperation (.noRecord .ok 0) s) := rfl

@[simp] theorem finishDecode_eq (k : BitVec 2) (q : BitVec 4) (c : BitVec 2) (sc : BitVec 4) (p : List Byte) (n : Nat)
    (s : State) :
    finishDecode k q c sc p n s = .next (endOperation (.decoded k q c sc p n) s) := rfl

/-! ### The frame of the latched record -/

/-- The frame the forms build, read off the latched record (R170). -/
theorem frameOf_latched (s : State) :
    frameOf (latchedTpdu s) = match kindMux s.req.kind.value with
      | .control => [packHeader s.req.kind.value s.req.seq.value.bits s.req.ctl.value.bits]
      | .data =>
        match s.req.payload.value with
        | [] => [packHeader s.req.kind.value s.req.seq.value.bits (scHi s.req.sc.value), packCont (scLo s.req.sc.value) 0]
        | c :: rest => packHeader s.req.kind.value s.req.seq.value.bits (scHi s.req.sc.value) ::
            packCont (scLo s.req.sc.value) c :: rest := by
  cases hk : kindMux s.req.kind.value <;> cases hp : s.req.payload.value <;>
    simp [hk, hp, packHeader_ports, packHeader_port _ _ (scHi _), frameOf, latchedTpdu, seqBits, ctlBits]

/-! ### The source -/

/-- The octets left after `n` of them are taken. -/
theorem srcBytes_advanceSrc (n : Nat) (s : State) : srcBytes (advanceSrc n s) = (srcBytes s).drop n := by
  simp [srcBytes, List.drop_drop]

@[simp] theorem srcBytes_writeHdr (b : Byte) (s : State) : srcBytes (writeHdr b s) = srcBytes s := rfl
@[simp] theorem srcBytes_writeCbuf (b : List Byte) (s : State) : srcBytes (writeCbuf b s) = srcBytes s := rfl
@[simp] theorem srcBytes_countDraw (s : State) : srcBytes (countDraw s) = srcBytes s := rfl
@[simp] theorem srcBytes_endOperation (r : ResRegs) (s : State) : srcBytes (endOperation r s) = srcBytes s := rfl

/-- What is left after the header read. -/
theorem srcBytes_afterHeader {s : State} {h : Byte} {rest : List Byte} (hs : srcBytes s = h :: rest) :
    srcBytes (afterHeader h s) = rest := by
  have := srcBytes_advanceSrc 1 s
  rw [hs] at this
  exact this

/-- A source with octets left has its position before its last octet. -/
theorem pos_lt_of_srcBytes {s : State} {h : Byte} {rest : List Byte} (hs : srcBytes s = h :: rest) :
    s.src.pos + 1 + rest.length = s.src.octets.length := by
  have := congrArg List.length hs
  simp [srcBytes] at this
  omega

/-- The next octet, by its index. -/
theorem getElem?_pos_of_srcBytes {s : State} {h : Byte} {rest : List Byte} (hs : srcBytes s = h :: rest) :
    s.src.octets[s.src.pos]? = some h := by
  have := congrArg (·[0]?) hs
  simpa [srcBytes] using this

/-- A draw is within its range (D8). -/
theorem drawUpTo_le (q : Nat) (s : State) : drawUpTo q s ≤ q :=
  Nat.lt_succ_iff.mp (Nat.mod_lt _ (Nat.succ_pos q))

/-! ### The header read: its five cases -/

theorem takeHeader_taken {s : State} {k : Byte → State → Result} (h : s.work.hdr.valid = true) :
    takeHeader s k = k s.work.hdr.value s := by simp [takeHeader, h]

theorem takeHeader_ahead {s : State} {k : Byte → State → Result} {h : Byte} {rest : List Byte}
    (ha : HeaderAhead s h rest) : takeHeader s k = k h (afterHeader h s) := by
  simp [takeHeader, srcRead1, ha.1, ha.2, writeHdr, advanceSrc, afterHeader]

theorem takeHeader_eos {s : State} {k : Byte → State → Result} (hv : s.work.hdr.valid = false)
    (hb : srcBytes s = []) (ht : s.src.term = .eos) : takeHeader s k = raise .truncatedInput 0 s := by
  simp [takeHeader, srcRead1, hv, hb, ht]

theorem takeHeader_fail {s : State} {k : Byte → State → Result} (hv : s.work.hdr.valid = false)
    (hb : srcBytes s = []) (ht : s.src.term = .fail) : takeHeader s k = raise .ioFailure 0 s := by
  simp [takeHeader, srcRead1, hv, hb, ht]

theorem takeHeader_stall {s : State} {k : Byte → State → Result} (hv : s.work.hdr.valid = false)
    (hb : srcBytes s = []) (ht : s.src.term = .stall) : takeHeader s k = .next s := by
  simp [takeHeader, srcRead1, hv, hb, ht]

/-- Everything the header read can come to: it goes on with a header, or it is one of three endings without one. -/
theorem takeHeader_cases (s : State) (k : Byte → State → Result) :
    (s.work.hdr.valid = true ∧ takeHeader s k = k s.work.hdr.value s) ∨
    (∃ h rest, HeaderAhead s h rest ∧ takeHeader s k = k h (afterHeader h s)) ∨
    (s.work.hdr.valid = false ∧ srcBytes s = [] ∧
      ((s.src.term = .eos ∧ takeHeader s k = raise .truncatedInput 0 s) ∨
       (s.src.term = .fail ∧ takeHeader s k = raise .ioFailure 0 s) ∨
       (s.src.term = .stall ∧ takeHeader s k = .next s))) := by
  cases hv : s.work.hdr.valid with
  | true => exact .inl ⟨rfl, takeHeader_taken hv⟩
  | false =>
    cases hb : srcBytes s with
    | cons h rest => exact .inr (.inl ⟨h, rest, ⟨hv, hb⟩, takeHeader_ahead ⟨hv, hb⟩⟩)
    | nil =>
      refine .inr (.inr ⟨rfl, rfl, ?_⟩)
      cases ht : s.src.term with
      | eos => exact .inl ⟨rfl, takeHeader_eos hv hb ht⟩
      | fail => exact .inr (.inl ⟨rfl, takeHeader_fail hv hb ht⟩)
      | stall => exact .inr (.inr ⟨rfl, takeHeader_stall hv hb ht⟩)

/-! ### The rest-read: its three cases -/

theorem takeRest_eos {s : State} {k : List Byte → State → Result} (ht : s.src.term = .eos) :
    takeRest s k = k (srcBytes s) (writeCbuf (srcBytes s) (advanceSrc (srcBytes s).length s)) := by
  simp [takeRest, srcReadRest, ht]

theorem takeRest_fail {s : State} {k : List Byte → State → Result} (ht : s.src.term = .fail) :
    ∃ n ≤ (srcBytes s).length, takeRest s k = raise .ioFailure (1 + n) (countDraw (advanceSrc n s)) :=
  ⟨drawUpTo (srcBytes s).length s, drawUpTo_le _ _, by simp [takeRest, srcReadRest, ht]⟩

theorem takeRest_stall {s : State} {k : List Byte → State → Result} (ht : s.src.term = .stall) :
    takeRest s k = .next s := by simp [takeRest, srcReadRest, ht]

/-- Everything the rest-read can come to. -/
theorem takeRest_cases (s : State) (k : List Byte → State → Result) :
    (s.src.term = .eos ∧
      takeRest s k = k (srcBytes s) (writeCbuf (srcBytes s) (advanceSrc (srcBytes s).length s))) ∨
    (s.src.term = .fail ∧
      ∃ n ≤ (srcBytes s).length, takeRest s k = raise .ioFailure (1 + n) (countDraw (advanceSrc n s))) ∨
    (s.src.term = .stall ∧ takeRest s k = .next s) := by
  cases ht : s.src.term with
  | eos => exact .inl ⟨rfl, takeRest_eos ht⟩
  | fail => exact .inr (.inl ⟨rfl, takeRest_fail ht⟩)
  | stall => exact .inr (.inr ⟨rfl, takeRest_stall ht⟩)

/-! ### The sink write, with the count before it: its three cases -/

theorem sendFrame_ok (frame : List Byte) {s : State} (h : s.snk.answer = .ok) :
    sendFrame (writeObuf frame s) =
      .next (endOperation (.noRecord .ok 0) { s with snk := { s.snk with content := s.snk.content ++ frame } }) := by
  simp [sendFrame, sinkWriteAll, h]; rfl

theorem sendFrame_fail (frame : List Byte) {s : State} (h : s.snk.answer = .fail) :
    sendFrame (writeObuf frame s) = .next (endOperation (.noRecord .ioFailure 0) s) := by
  simp [sendFrame, sinkWriteAll, h]

theorem sendFrame_stall (frame : List Byte) {s : State} (h : s.snk.answer = .stall) :
    sendFrame (writeObuf frame s) = .next (writeConsumed 0 (writeObuf frame s)) := by
  simp [sendFrame, sinkWriteAll, h]

/-- Everything a sink write can come to. -/
theorem sendFrame_cases (frame : List Byte) (s : State) :
    ∃ t, sendFrame (writeObuf frame s) = .next t ∧
      ((s.snk.answer = .ok ∧
          t = endOperation (.noRecord .ok 0) { s with snk := { s.snk with content := s.snk.content ++ frame } }) ∨
       (s.snk.answer = .fail ∧ t = endOperation (.noRecord .ioFailure 0) s) ∨
       (s.snk.answer = .stall ∧ t = writeConsumed 0 (writeObuf frame s))) := by
  cases h : s.snk.answer with
  | ok => exact ⟨_, sendFrame_ok frame h, by simp⟩
  | fail => exact ⟨_, sendFrame_fail frame h, by simp⟩
  | stall => exact ⟨_, sendFrame_stall frame h, by simp⟩

/-- Whatever the sink answers, an ENCODE's sink write leaves these as they were. -/
theorem sendFrame_frame {frame : List Byte} {s t : State} (h : sendFrame (writeObuf frame s) = .next t) :
    t.ports = s.ports ∧ t.limits = s.limits ∧ t.opStart = s.opStart ∧ t.req = s.req ∧ t.src = s.src ∧ t.draws = s.draws ∧
    t.host = s.host ∧ t.work.hdr = s.work.hdr ∧ t.snk.answer = s.snk.answer := by
  obtain ⟨t', e, ⟨-, rfl⟩ | ⟨-, rfl⟩ | ⟨-, rfl⟩⟩ := sendFrame_cases frame s <;>
    (rw [h] at e; cases e; simp)

/-! ### The length limits -/

@[simp] theorem withinLimit_none (n : Nat) : withinLimit none n = true := rfl
@[simp] theorem withinLimit_some (m n : Nat) : withinLimit (some m) n = true ↔ n ≤ m := by simp [withinLimit]

/-- A limit that admits a length admits every shorter one. -/
theorem withinLimit_mono {limit : Option Nat} {m n : Nat} (h : withinLimit limit n = true) (hm : m ≤ n) :
    withinLimit limit m = true := by
  cases limit with
  | none => rfl
  | some k => simp at h ⊢; omega

@[simp] theorem requestFits_decode (l : LengthLimits) : requestFits l decodeRequest = true := rfl
@[simp] theorem requestFits_encode (l : LengthLimits) (t : Tpdu) :
    requestFits l (encodeRequest t) = withinLimit l.maxPayload t.payload.length := rfl

/-- A DECODE is delivered at most what its source holds. -/
theorem octetsDelivered_le (bytes : List Byte) : octetsDelivered bytes ≤ bytes.length := by
  cases bytes with
  | nil => simp [octetsDelivered]
  | cons h rest => cases hk : kindMux (extPt h) <;> simp [octetsDelivered, hk]; omega

/-- No ENCODE is beyond `MAX_FRAME`. -/
theorem frameFits_encode {s : State} (ho : s.req.op = .holding .encode) : frameFits s = true := by simp [frameFits, ho]

/-- A DECODE that starts is within `MAX_FRAME` when all its source holds is. -/
theorem frameFits_decode {s : State} (ho : s.req.op = .holding .decode) (hv : s.work.hdr.valid = false)
    (h : withinLimit s.limits.maxFrame (srcBytes s).length = true) : frameFits s = true := by
  simp only [frameFits, ho, Latch.holding_value, hv]
  exact withinLimit_mono h (octetsDelivered_le _)

/-- Taking the header of a data frame does not change whether the frame is within `MAX_FRAME`. -/
theorem frameFits_afterHeader {s : State} {h : Byte} {rest : List Byte} (ha : HeaderAhead s h rest)
    (hk : kindMux (extPt h) = .data) : frameFits (afterHeader h s) = frameFits s := by
  simp [frameFits, ha.1, ha.2, srcBytes_afterHeader ha.2, octetsDelivered, hk]

end Sys2Proof.Machine
end

