-- ==== Sys2Proof/Laws/Forms.lean ====
section
/-! SUPPORT. The shared bodies of the forms: what each does when it starts on its own operands, and what none of them changes. -/

namespace Sys2Proof.Machine

/-! ### DECODE bodies on a source that has the header ahead -/

theorem decodeControl_ahead {s : State} {h : Byte} {rest : List Byte} (ha : HeaderAhead s h rest) (k : BitVec 2)
    (q : BitVec 4) (c : BitVec 2) :
    decodeControl k q c s =
      .next (endOperation (.decoded k q c 0 [] 1) (afterHeader h s)) := by
  rw [decodeControl, takeHeader_ahead ha, finishDecode_eq]

theorem decodeNocont_ahead_eos {s : State} {h : Byte} (ha : HeaderAhead s h []) (ht : s.src.term = .eos) :
    decodeNocont s = .next (endOperation (.noRecord .dataUnitTooShort 1) (afterHeader h s)) := by
  rw [decodeNocont, takeHeader_ahead ha, takeRest_eos (s := afterHeader h s) ht, raise_eq, srcBytes_afterHeader ha.2]
  rfl

theorem decodeShort_ahead_eos {s : State} {h c : Byte} (ha : HeaderAhead s h [c]) (ht : s.src.term = .eos)
    (k : BitVec 2) (q : BitVec 4) (l : BitVec 2) :
    decodeShort k q l s = .next (endOperation (.decoded k q 0 (joinSc l (extSlo c)) [extP6 c] 2)
      (advanceSrc 1 (afterHeader h s))) := by
  rw [decodeShort, takeHeader_ahead ha, takeRest_eos (s := afterHeader h s) ht, srcBytes_afterHeader ha.2, memRead_cbuf_cons, finishDecode_eq]
  rfl

theorem decodeLong_ahead_eos {s : State} {h c : Byte} {rest : List Byte} (ha : HeaderAhead s h (c :: rest))
    (ht : s.src.term = .eos) (k : BitVec 2) (q : BitVec 4) (l : BitVec 2) :
    decodeLong k q l s = .next (endOperation (.decoded k q 0 (joinSc l (extSlo c)) rest (1 + (rest.length + 1)))
      (advanceSrc (rest.length + 1) (afterHeader h s))) := by
  rw [decodeLong, takeHeader_ahead ha, takeRest_eos (s := afterHeader h s) ht, srcBytes_afterHeader ha.2, memRead_cbuf_cons, finishDecode_eq]
  rfl

/-- A data form whose rest-read fails ends with `IoFailure`, whatever it would have done with the octets (R145). -/
theorem dataForm_ahead_fail {s : State} {h : Byte} {rest : List Byte} (ha : HeaderAhead s h rest)
    (ht : s.src.term = .fail) (k : List Byte → State → Result) :
    ∃ n ≤ rest.length, takeHeader s (fun _ s1 => takeRest s1 k) =
      .next (endOperation (.noRecord .ioFailure (1 + n)) (countDraw (advanceSrc n (afterHeader h s)))) := by
  obtain ⟨n, hn, he⟩ := takeRest_fail (s := afterHeader h s) (k := k) ht
  rw [srcBytes_afterHeader ha.2] at hn
  exact ⟨n, hn, by rw [takeHeader_ahead ha, he, raise_eq]⟩

/-- A data form whose rest-read blocks stays as it is, with the header taken (R145, R237). -/
theorem dataForm_ahead_stall {s : State} {h : Byte} {rest : List Byte} (ha : HeaderAhead s h rest)
    (ht : s.src.term = .stall) (k : List Byte → State → Result) :
    takeHeader s (fun _ s1 => takeRest s1 k) = .next (afterHeader h s) := by
  rw [takeHeader_ahead ha, takeRest_stall (s := afterHeader h s) ht]

/-! ### What a DECODE body leaves alone -/

/-- What no DECODE form changes (R50, R59), and that the source does not move back (R61). `OBUF` is as it was, unless the operation
ended, which leaves it without a value (R69). -/
structure DecodeFrame (s t : State) : Prop where
  ports   : t.ports = s.ports
  limits  : t.limits = s.limits
  opStart : t.opStart = s.opStart
  req     : t.req = s.req
  obuf    : t.work.obuf = s.work.obuf ∨ (t.phase = .idle ∧ t.work.obuf = .void)
  snk     : t.snk = s.snk
  octets  : t.src.octets = s.src.octets
  term    : t.src.term = s.src.term
  host    : t.host = s.host
  pos     : s.src.pos ≤ t.src.pos

theorem DecodeFrame.refl (s : State) : DecodeFrame s s := ⟨rfl, rfl, rfl, rfl, .inl rfl, rfl, rfl, rfl, rfl, le_refl _⟩

theorem DecodeFrame.endOperation (r : ResRegs) (s : State) : DecodeFrame s (endOperation r s) :=
  ⟨rfl, rfl, rfl, rfl, .inr ⟨rfl, rfl⟩, rfl, rfl, rfl, rfl, le_refl _⟩

theorem DecodeFrame.trans {s t u : State} (h : DecodeFrame s t) (g : DecodeFrame t u)
    (ho : t.work.obuf = s.work.obuf) : DecodeFrame s u :=
  ⟨g.ports.trans h.ports, g.limits.trans h.limits, g.opStart.trans h.opStart, g.req.trans h.req, ho ▸ g.obuf, g.snk.trans h.snk,
   g.octets.trans h.octets, g.term.trans h.term, g.host.trans h.host, h.pos.trans g.pos⟩

/-- The header read keeps the frame, if what follows it does. -/
theorem takeHeader_frame {s t : State} {k : Byte → State → Result}
    (hk : ∀ b s1, k b s1 = .next t → DecodeFrame s1 t) (h : takeHeader s k = .next t) : DecodeFrame s t := by
  obtain ⟨-, e⟩ | ⟨b, rest, -, e⟩ | ⟨-, -, ⟨-, e⟩ | ⟨-, e⟩ | ⟨-, e⟩⟩ := takeHeader_cases s k <;> rw [e] at h
  · exact hk _ _ h
  · exact DecodeFrame.trans (t := afterHeader b s)
      ⟨rfl, rfl, rfl, rfl, .inl rfl, rfl, rfl, rfl, rfl, Nat.le_succ _⟩ (hk _ _ h) rfl
  · cases h; exact .endOperation _ _
  · cases h; exact .endOperation _ _
  · cases h; exact .refl _

/-- The rest-read keeps the frame, if what follows it does. -/
theorem takeRest_frame {s t : State} {k : List Byte → State → Result}
    (hk : ∀ r s1, k r s1 = .next t → DecodeFrame s1 t) (h : takeRest s k = .next t) : DecodeFrame s t := by
  obtain ⟨-, e⟩ | ⟨-, n, -, e⟩ | ⟨-, e⟩ := takeRest_cases s k <;> rw [e] at h
  · exact DecodeFrame.trans (t := writeCbuf (srcBytes s) (advanceSrc (srcBytes s).length s))
      ⟨rfl, rfl, rfl, rfl, .inl rfl, rfl, rfl, rfl, rfl, Nat.le_add_right _ _⟩ (hk _ _ h) rfl
  · cases h
    exact DecodeFrame.trans (t := countDraw (advanceSrc n s))
      ⟨rfl, rfl, rfl, rfl, .inl rfl, rfl, rfl, rfl, rfl, Nat.le_add_right _ _⟩ (.endOperation _ _) rfl
  · cases h; exact .refl _

/-- An ending of a DECODE keeps the frame. -/
theorem ending_frame {s t : State} {r : ResRegs} (h : (.next (endOperation r s) : Result) = .next t) :
    DecodeFrame s t := by
  cases h; exact .endOperation _ _

/-! ### ENCODE bodies -/

/-- Each ENCODE body that runs to its sink write has built a frame whose first octet is in `HDR`. -/
theorem encodeControl_next {s t : State} {k : BitVec 2} (h : encodeControl k s = .next t) :
    ∃ b, sendFrame (writeObuf [b] (writeHdr b s)) = .next t := by
  obtain ⟨-, h⟩ := readReg_next h
  obtain ⟨-, h⟩ := readReg_next h
  exact ⟨_, h⟩

theorem encodeEmpty_next {s t : State} {k : BitVec 2} (h : encodeEmpty k s = .next t) :
    ∃ b c, sendFrame (writeObuf [b, c] (writeHdr b s)) = .next t := by
  obtain ⟨-, h⟩ := readReg_next h
  obtain ⟨-, h⟩ := readReg_next h
  exact ⟨_, _, h⟩

theorem encodeCopy_next {s t : State} {k : BitVec 2} (h : encodeCopy k s = .next t) :
    ∃ b c rest, sendFrame (writeObuf (b :: c :: rest) (writeHdr b s)) = .next t := by
  obtain ⟨-, h⟩ := readReg_next h
  obtain ⟨-, h⟩ := readReg_next h
  obtain ⟨-, h⟩ := readReg_next h
  obtain ⟨c, -, hc, h⟩ := memRead_next h
  obtain ⟨-, h⟩ := memWrite_next h
  cases hp : s.req.payload.value with
  | nil => simp [bufferReg, hp] at hc
  | cons p rest =>
    simp only [hp] at h
    exact ⟨_, _, _, h⟩

theorem encodeControl_latched {s : State} {q c : PortWord} (k : BitVec 2)
    (hq : s.req.seq = .holding q) (hc : s.req.ctl = .holding c) :
    encodeControl k s = sendFrame (writeObuf [packHeader k q.bits c.bits] (writeHdr (packHeader k q.bits c.bits) s)) := by
  simp [encodeControl, hq, hc, startFrame]

theorem encodeEmpty_latched {s : State} {q : PortWord} {sc : BitVec 4} (k : BitVec 2)
    (hq : s.req.seq = .holding q) (hc : s.req.sc = .holding sc) :
    encodeEmpty k s = sendFrame (writeObuf [packHeader k q.bits (scHi sc), packCont (scLo sc) 0]
      (writeHdr (packHeader k q.bits (scHi sc)) s)) := by
  simp [encodeEmpty, hq, hc, startFrame, writeObuf]

theorem encodeCopy_latched {s : State} {q : PortWord} {sc : BitVec 4} {p : Byte} {rest : List Byte}
    (k : BitVec 2) (hq : s.req.seq = .holding q) (hc : s.req.sc = .holding sc)
    (hp : s.req.payload = .holding (p :: rest)) :
    encodeCopy k s = sendFrame (writeObuf (packHeader k q.bits (scHi sc) :: packCont (scLo sc) p :: rest)
      (writeHdr (packHeader k q.bits (scHi sc)) s)) := by
  simp only [encodeCopy, hq, hc, hp, readReg_holding, startFrame, List.singleton_append, memRead_obuf_frame,
    memWrite_obuf_frame]
  rfl

end Sys2Proof.Machine
end

