-- ==== Sys2Proof/Laws/PerInstr.lean ====
section
/-! SUPPORT. The family `EncodesIntoRow`: the word of each form lies in the form's own row of the opcode table, and can occur. -/

namespace Sys2Proof.Laws.EncodesIntoRow

/-- The encoder's word for `i` matches the row of `i`, and is a word that R96 says can occur. -/
def Statement (i : Instr) : Prop := i.row.matches (encode i) = true ∧ (encode i).canOccur = true

theorem decodeNohdr : Statement .decodeNohdr := by unfold Statement; decide
theorem decodeUcd (q : BitVec 4) (c : BitVec 2) : Statement (.decodeUcd q c) := by
  unfold Statement; revert q c; decide
theorem decodeNcd (q : BitVec 4) (c : BitVec 2) : Statement (.decodeNcd q c) := by
  unfold Statement; revert q c; decide
theorem decodeUdpNocont (q : BitVec 4) (c : BitVec 2) : Statement (.decodeUdpNocont q c) := by
  unfold Statement; revert q c; decide
theorem decodeUdpShort (q : BitVec 4) (c : BitVec 2) : Statement (.decodeUdpShort q c) := by
  unfold Statement; revert q c; decide
theorem decodeUdpLong (q : BitVec 4) (c : BitVec 2) : Statement (.decodeUdpLong q c) := by
  unfold Statement; revert q c; decide
theorem decodeNdpNocont (q : BitVec 4) (c : BitVec 2) : Statement (.decodeNdpNocont q c) := by
  unfold Statement; revert q c; decide
theorem decodeNdpShort (q : BitVec 4) (c : BitVec 2) : Statement (.decodeNdpShort q c) := by
  unfold Statement; revert q c; decide
theorem decodeNdpLong (q : BitVec 4) (c : BitVec 2) : Statement (.decodeNdpLong q c) := by
  unfold Statement; revert q c; decide
theorem encodeUcd : Statement .encodeUcd := by unfold Statement; decide
theorem encodeNcd : Statement .encodeNcd := by unfold Statement; decide
theorem encodeUdpEmpty : Statement .encodeUdpEmpty := by unfold Statement; decide
theorem encodeUdpPayload : Statement .encodeUdpPayload := by unfold Statement; decide
theorem encodeNdpEmpty : Statement .encodeNdpEmpty := by unfold Statement; decide
theorem encodeNdpPayload : Statement .encodeNdpPayload := by unfold Statement; decide

end Sys2Proof.Laws.EncodesIntoRow
end

