-- ==== Sys2Proof/Laws/Step.lean ====
section
/-! SUPPORT. What a step can do, said once: by phase and by the host's next action; and what running the operation comes to, by
what the request and the source present. -/

namespace Sys2Proof.Machine

/-! ### The step, by phase and by the host's next action -/

theorem step_idle_nil {s : State} (hp : s.phase = .idle) (hh : s.host = []) : step s = .next s := by
  simp [step, sequence, idleStep, hp, hh]

theorem step_idle_cons {s : State} {e : HostEvent} {later : List HostEvent} (hp : s.phase = .idle)
    (hh : s.host = e :: later) : step s = idleEvent e { s with host := later } := by
  simp [step, sequence, idleStep, hp, hh]

theorem step_busy {s : State} (hp : s.phase = .busy) : step s = busyStep s := by
  simp [step, sequence, hp]

theorem step_busy_nil {s : State} (hp : s.phase = .busy) (hh : s.host = []) : step s = runWithinLimit s := by
  simp [step_busy hp, busyStep, hh]

/-- The two cases of a run under `MAX_FRAME`. -/
theorem runWithinLimit_fits {s : State} (h : frameFits s = true) : runWithinLimit s = runOperation s := by
  simp [runWithinLimit, h]

theorem runWithinLimit_over {s : State} (h : frameFits s = false) : runWithinLimit s = .refused .frameTooLong := by
  simp [runWithinLimit, h]

/-- A run under `MAX_FRAME` that answers a next state is a run within it. -/
theorem runWithinLimit_next {s t : State} (h : runWithinLimit s = .next t) :
    frameFits s = true ∧ runOperation s = .next t := by
  unfold runWithinLimit at h
  split at h
  · exact ⟨‹_›, h⟩
  · cases h

/-- The two cases of the host's read of a result register. -/
theorem readResult_readable {r : ResultReg} {s : State} (h : readable r s = true) : readResult r s = .next s := by
  simp [readResult, h]

theorem readResult_unreadable {r : ResultReg} {s : State} (h : readable r s = false) :
    readResult r s = .fault (.noValue (.result r)) := by simp [readResult, h]

/-- The two cases of presenting a request to an IDLE block. -/
theorem presentRequest_fits {r : Request} {s : State} (h : requestFits s.limits r = true) :
    presentRequest r s = .next (acceptRequest r s) := by simp [presentRequest, h]

theorem presentRequest_over {r : Request} {s : State} (h : requestFits s.limits r = false) :
    presentRequest r s = .refused .payloadTooLong := by simp [presentRequest, h]

theorem presentRequest_next {r : Request} {s t : State} (h : presentRequest r s = .next t) :
    requestFits s.limits r = true ∧ t = acceptRequest r s := by
  unfold presentRequest at h
  split at h
  · cases h; exact ⟨‹_›, rfl⟩
  · cases h

/-- Everything a step in BUSY can be: the operation's run, the abandonment by a reset, or one of the other agents' actions. -/
theorem busyStep_cases (s : State) :
    (∃ later, busyStep s = runWithinLimit { s with host := later }) ∨
    (∃ later, s.host = .reset :: later ∧ busyStep s = .next (abandonOperation { s with host := later })) ∨
    (∃ r later, s.host = .readResult r :: later ∧ busyStep s = readResult r { s with host := later }) ∨
    (∃ n later, s.host = .takeFromSource n :: later ∧ busyStep s = busyTakeFromSource n { s with host := later }) ∨
    (∃ b later, s.host = .writeToSink b :: later ∧ busyStep s = busyWriteToSink b { s with host := later }) := by
  obtain ⟨ports, limits, phase, req, work, res, src, snk, opStart, draws, host⟩ := s
  match host with
  | [] => exact .inl ⟨_, rfl⟩
  | .quiet :: later => exact .inl ⟨later, rfl⟩
  | .request _ :: _ => exact .inl ⟨_, rfl⟩
  | .attachSource _ _ :: _ => exact .inl ⟨_, rfl⟩
  | .attachSink _ _ :: _ => exact .inl ⟨_, rfl⟩
  | .sinkWillAnswer _ :: _ => exact .inl ⟨_, rfl⟩
  | .readResult r :: later => exact .inr (.inr (.inl ⟨r, later, rfl, rfl⟩))
  | .takeFromSource n :: later => exact .inr (.inr (.inr (.inl ⟨n, later, rfl, rfl⟩)))
  | .writeToSink b :: later => exact .inr (.inr (.inr (.inr ⟨b, later, rfl, rfl⟩)))
  | .reset :: later => exact .inr (.inl ⟨later, rfl, rfl⟩)

/-- When the host lets the operation run, the step is that run, with at most a quiet action used up. -/
theorem step_busy_letsRun {s : State} (hp : s.phase = .busy) (hl : HostLetsRun s) :
    ∃ later, step s = runWithinLimit { s with host := later } := by
  rw [step_busy hp]
  obtain h | ⟨_, hh, -⟩ | ⟨_, _, hh, -⟩ | ⟨_, _, hh, -⟩ | ⟨_, _, hh, -⟩ := busyStep_cases s
  · exact h
  all_goals simp [HostLetsRun, hh] at hl

/-- A drain takes octets off the front of what the source will still deliver, at most those there (log entry 19). -/
theorem srcBytes_takeFromSource (n : Nat) (s : State) : srcBytes (takeFromSource n s) = (srcBytes s).drop n := by
  rw [takeFromSource, srcBytes_advanceSrc]
  obtain h | h := Nat.le_total n (srcBytes s).length
  · rw [Nat.min_eq_left h]
  · rw [Nat.min_eq_right h, List.drop_length, List.drop_eq_nil_of_le h]

/-! ### Building the dispatch word -/

theorem fetch_decode {s : State} (ho : s.req.op = .holding .decode) : fetch s = fetchDecode s := by
  simp [fetch, ho]

theorem fetch_encode {s : State} (ho : s.req.op = .holding .encode) : fetch s = fetchEncode s := by
  simp [fetch, ho]

theorem fetchDecode_ahead {s : State} {h : Byte} {rest : List Byte} (ha : HeaderAhead s h rest) :
    fetchDecode s = fetchWithHeader h rest s.src.term := by
  simp [fetchDecode, ha.1, ha.2]

theorem fetchWithHeader_control {h : Byte} {rest : List Byte} {term : SrcTerm} (hk : kindMux (extPt h) = .control) :
    fetchWithHeader h rest term = .word (dispatchWord 1 0b00 0 h) := by
  simp [fetchWithHeader, hk, Op.code]

theorem fetchWithHeader_data {h : Byte} {rest : List Byte} {term : SrcTerm} (hk : kindMux (extPt h) = .data) :
    fetchWithHeader h rest term = match term with
      | .eos => .word (dispatchWord 1 (restClass (routeDec rest.length)) 0 h)
      | .fail => .word (dispatchWord 1 0b00 0 h)
      | .stall => .stalled := by
  cases term <;> simp [fetchWithHeader, hk, Op.code]

theorem runOperation_word {s : State} {d : DWord} {i : Instr} (hf : fetch s = .word d) (hd : decode d = .ok i) :
    runOperation s = exec i s := by
  simp [runOperation, hf, hd]

theorem runOperation_stalled {s : State} (hf : fetch s = .stalled) : runOperation s = stallDecode s := by
  simp [runOperation, hf]

/-! ### The run of a DECODE that starts -/

/-- A control header (R143, R144). -/
theorem runOperation_control {s : State} {h : Byte} {rest : List Byte} (ho : s.req.op = .holding .decode)
    (ha : HeaderAhead s h rest) (hk : kindMux (extPt h) = .control) :
    runOperation s = .next (endOperation (.decoded (extPt h) (extSeq h) (extLow2 h) 0 [] 1) (afterHeader h s)) := by
  have hf : fetch s = .word (dispatchWord 1 0b00 0 h) := by
    rw [fetch_decode ho, fetchDecode_ahead ha, fetchWithHeader_control hk]
  rw [runOperation_word hf (decode_restClass0 h)]
  obtain e | e := control_cases hk <;> rw [e]
  · exact decodeControl_ahead ha _ _ _
  · exact decodeControl_ahead ha _ _ _

/-- A data header with nothing after it (R150, R151). -/
theorem runOperation_nocont {s : State} {h : Byte} (ho : s.req.op = .holding .decode) (ha : HeaderAhead s h [])
    (hk : kindMux (extPt h) = .data) (ht : s.src.term = .eos) :
    runOperation s = .next (endOperation (.noRecord .dataUnitTooShort 1) (afterHeader h s)) := by
  have hf : fetch s = .word (dispatchWord 1 0b00 0 h) := by
    rw [fetch_decode ho, fetchDecode_ahead ha, fetchWithHeader_data hk, ht]; rfl
  rw [runOperation_word hf (decode_restClass0 h)]
  obtain e | e := data_cases hk <;> rw [e]
  · exact decodeNocont_ahead_eos ha ht
  · exact decodeNocont_ahead_eos ha ht

/-- A data header with one octet after it (R146, R148). -/
theorem runOperation_short {s : State} {h c : Byte} (ho : s.req.op = .holding .decode) (ha : HeaderAhead s h [c])
    (hk : kindMux (extPt h) = .data) (ht : s.src.term = .eos) :
    runOperation s = .next (endOperation
      (.decoded (extPt h) (extSeq h) 0 (joinSc (extLow2 h) (extSlo c)) [extP6 c] 2)
      (advanceSrc 1 (afterHeader h s))) := by
  have hf : fetch s = .word (dispatchWord 1 0b01 0 h) := by
    rw [fetch_decode ho, fetchDecode_ahead ha, fetchWithHeader_data hk, ht]; rfl
  rw [runOperation_word hf (decode_restClass1 h)]
  obtain e | e := data_cases hk <;> rw [e]
  · exact decodeShort_ahead_eos ha ht _ _ _
  · exact decodeShort_ahead_eos ha ht _ _ _

/-- A data header with two or more octets after it (R147, R149). -/
theorem runOperation_long {s : State} {h c p : Byte} {rest : List Byte} (ho : s.req.op = .holding .decode)
    (ha : HeaderAhead s h (c :: p :: rest)) (hk : kindMux (extPt h) = .data) (ht : s.src.term = .eos) :
    runOperation s = .next (endOperation
      (.decoded (extPt h) (extSeq h) 0 (joinSc (extLow2 h) (extSlo c)) (p :: rest) (rest.length + 3))
      (advanceSrc (rest.length + 2) (afterHeader h s))) := by
  have hf : fetch s = .word (dispatchWord 1 0b10 0 h) := by
    rw [fetch_decode ho, fetchDecode_ahead ha, fetchWithHeader_data hk, ht]; rfl
  have hn : 1 + ((p :: rest).length + 1) = rest.length + 3 := by simp; omega
  rw [runOperation_word hf (decode_restClass2 h), ← hn]
  obtain e | e := data_cases hk <;> rw [e]
  · exact decodeLong_ahead_eos ha ht _ _ _
  · exact decodeLong_ahead_eos ha ht _ _ _

/-- A data header and a rest-read that fails (R145). -/
theorem runOperation_restFail {s : State} {h : Byte} {rest : List Byte} (ho : s.req.op = .holding .decode)
    (ha : HeaderAhead s h rest) (hk : kindMux (extPt h) = .data) (ht : s.src.term = .fail) :
    ∃ n ≤ rest.length, runOperation s =
      .next (endOperation (.noRecord .ioFailure (1 + n)) (countDraw (advanceSrc n (afterHeader h s)))) := by
  have hf : fetch s = .word (dispatchWord 1 0b00 0 h) := by
    rw [fetch_decode ho, fetchDecode_ahead ha, fetchWithHeader_data hk, ht]
  rw [runOperation_word hf (decode_restClass0 h)]
  obtain e | e := data_cases hk <;> rw [e]
  · exact dataForm_ahead_fail ha ht _
  · exact dataForm_ahead_fail ha ht _

/-- A data header and a rest-read that blocks (R237). -/
theorem runOperation_restStall {s : State} {h : Byte} {rest : List Byte} (ho : s.req.op = .holding .decode)
    (ha : HeaderAhead s h rest) (hk : kindMux (extPt h) = .data) (ht : s.src.term = .stall) :
    runOperation s = .next (afterHeader h s) := by
  have hf : fetch s = .stalled := by
    rw [fetch_decode ho, fetchDecode_ahead ha, fetchWithHeader_data hk, ht]
  rw [runOperation_stalled hf, stallDecode, takeHeader_ahead ha]

/-- No header octet (R141). -/
theorem runOperation_nohdr {s : State} (ho : s.req.op = .holding .decode) (hv : s.work.hdr.valid = false)
    (hb : srcBytes s = []) :
    (s.src.term = .eos ∧ runOperation s = .next (endOperation (.noRecord .truncatedInput 0) s)) ∨
    (s.src.term = .fail ∧ runOperation s = .next (endOperation (.noRecord .ioFailure 0) s)) ∨
    (s.src.term = .stall ∧ runOperation s = .next s) := by
  have hf : fetch s = match s.src.term with
      | .eos => .word (dispatchWord 0 0b00 0 0)
      | .fail => .word (dispatchWord 0 0b00 0 0)
      | .stall => .stalled := by
    rw [fetch_decode ho]; cases ht : s.src.term <;> simp [fetchDecode, hv, hb, ht, Op.code]
  cases ht : s.src.term with
  | eos =>
    rw [ht] at hf
    exact .inl ⟨rfl, by rw [runOperation_word hf decode_noHeader]; change execDecodeNohdr s = _; rw [execDecodeNohdr, takeHeader_eos hv hb ht, raise_eq]⟩
  | fail =>
    rw [ht] at hf
    exact .inr (.inl ⟨rfl, by rw [runOperation_word hf decode_noHeader]; change execDecodeNohdr s = _; rw [execDecodeNohdr, takeHeader_fail hv hb ht, raise_eq]⟩)
  | stall =>
    rw [ht] at hf
    exact .inr (.inr ⟨rfl, by rw [runOperation_stalled hf]; exact takeHeader_stall hv hb ht⟩)

/-- A DECODE that has taken its data header, on a source that blocks, stays as it is (R237). -/
theorem runOperation_taken_stall {s : State} (ho : s.req.op = .holding .decode) (hv : s.work.hdr.valid = true)
    (hk : kindMux (extPt s.work.hdr.value) = .data) (ht : s.src.term = .stall) : runOperation s = .next s := by
  have hf : fetch s = .stalled := by
    rw [fetch_decode ho]; simp [fetchDecode, hv, fetchWithHeader, hk, ht]
  rw [runOperation_stalled hf, stallDecode, takeHeader_taken hv]

/-! ### The run of an ENCODE -/

/-- Every latched ENCODE request runs one of the six forms to its sink write, with the frame of R170 (R180). -/
theorem runOperation_encode {s : State} (hl : s.req.latched) (ho : s.req.op = .holding .encode) :
    ∃ b frame, frameOf (latchedTpdu s) = b :: frame ∧
      runOperation s = sendFrame (writeObuf (b :: frame) (writeHdr b s)) := by
  obtain ⟨-, hk, hq, hc, hs, hp⟩ := hl
  have hq := Latch.eq_holding hq
  have hc := Latch.eq_holding hc
  have hs := Latch.eq_holding hs
  have hpv := Latch.eq_holding hp
  cases hpay : s.req.payload.value with
  | nil =>
    have hf : fetch s = .word (dispatchWord 1 0b00 1 (s.req.kind.value ++ 0#6)) := by
      rw [fetch_encode ho]; simp [fetchEncode, hk, hp, hpay, payloadClass, Op.code]
    rw [runOperation_word hf (decode_payloadClass0 _)]
    obtain e | e | e | e := bitVec2_cases s.req.kind.value <;> rw [e] <;>
      simp only [frameOf_latched, e, hpay]
    · exact ⟨_, _, rfl, encodeEmpty_latched _ hq hs⟩
    · exact ⟨_, _, rfl, encodeEmpty_latched _ hq hs⟩
    · exact ⟨_, _, rfl, encodeControl_latched _ hq hc⟩
    · exact ⟨_, _, rfl, encodeControl_latched _ hq hc⟩
  | cons p rest =>
    rw [hpay] at hpv
    have hf : fetch s = .word (dispatchWord 1 0b01 1 (s.req.kind.value ++ 0#6)) := by
      rw [fetch_encode ho]; simp [fetchEncode, hk, hpv, payloadClass, Op.code]
    rw [runOperation_word hf (decode_payloadClass1 _)]
    obtain e | e | e | e := bitVec2_cases s.req.kind.value <;> rw [e] <;>
      simp only [frameOf_latched, e, hpay]
    · exact ⟨_, _, rfl, encodeCopy_latched _ hq hs hpv⟩
    · exact ⟨_, _, rfl, encodeCopy_latched _ hq hs hpv⟩
    · exact ⟨_, _, rfl, encodeControl_latched _ hq hc⟩
    · exact ⟨_, _, rfl, encodeControl_latched _ hq hc⟩

end Sys2Proof.Machine
end

