-- ==== Sys2Proof/Laws/Runs.lean ====
section
/-! SUPPORT. Everything a run of the operation in progress can come to, said once for DECODE and once for ENCODE; that such a run
always answers a next state; and what no form changes. -/

namespace Sys2Proof.Machine

/-- All the ways a DECODE that starts on `s` can go on (R140), one constructor for each. -/
inductive DecodeEnding (s : State) : State → Prop where
  | truncated : srcBytes s = [] → s.src.term = .eos → DecodeEnding s (endOperation (.noRecord .truncatedInput 0) s)
  | headerFailed : srcBytes s = [] → s.src.term = .fail → DecodeEnding s (endOperation (.noRecord .ioFailure 0) s)
  | headerStalled : srcBytes s = [] → s.src.term = .stall → DecodeEnding s s
  | control (h : Byte) (rest : List Byte) : srcBytes s = h :: rest → kindMux (extPt h) = .control →
      DecodeEnding s (endOperation (.decoded (extPt h) (extSeq h) (extLow2 h) 0 [] 1) (afterHeader h s))
  | restStalled (h : Byte) (rest : List Byte) : srcBytes s = h :: rest → kindMux (extPt h) = .data →
      s.src.term = .stall → DecodeEnding s (afterHeader h s)
  | restFailed (h : Byte) (rest : List Byte) (n : Nat) : srcBytes s = h :: rest → kindMux (extPt h) = .data →
      s.src.term = .fail → n ≤ rest.length →
      DecodeEnding s (endOperation (.noRecord .ioFailure (1 + n)) (countDraw (advanceSrc n (afterHeader h s))))
  | nocont (h : Byte) : srcBytes s = [h] → kindMux (extPt h) = .data → s.src.term = .eos →
      DecodeEnding s (endOperation (.noRecord .dataUnitTooShort 1) (afterHeader h s))
  | short (h c : Byte) : srcBytes s = [h, c] → kindMux (extPt h) = .data → s.src.term = .eos →
      DecodeEnding s (endOperation (.decoded (extPt h) (extSeq h) 0 (joinSc (extLow2 h) (extSlo c)) [extP6 c] 2)
        (advanceSrc 1 (afterHeader h s)))
  | long (h c p : Byte) (rest : List Byte) : srcBytes s = h :: c :: p :: rest → kindMux (extPt h) = .data →
      s.src.term = .eos →
      DecodeEnding s (endOperation
        (.decoded (extPt h) (extSeq h) 0 (joinSc (extLow2 h) (extSlo c)) (p :: rest) (rest.length + 3))
        (advanceSrc (rest.length + 2) (afterHeader h s)))

/-- A DECODE that starts goes on in one of those ways. -/
theorem runOperation_decode {s : State} (ho : s.req.op = .holding .decode) (hv : s.work.hdr.valid = false) :
    ∃ t, runOperation s = .next t ∧ DecodeEnding s t := by
  cases hb : srcBytes s with
  | nil =>
    obtain ⟨ht, e⟩ | ⟨ht, e⟩ | ⟨ht, e⟩ := runOperation_nohdr ho hv hb
    · exact ⟨_, e, .truncated hb ht⟩
    · exact ⟨_, e, .headerFailed hb ht⟩
    · exact ⟨_, e, .headerStalled hb ht⟩
  | cons h rest =>
    cases hk : kindMux (extPt h) with
    | control => exact ⟨_, runOperation_control ho ⟨hv, hb⟩ hk, .control h rest hb hk⟩
    | data =>
      cases ht : s.src.term with
      | stall => exact ⟨_, runOperation_restStall ho ⟨hv, hb⟩ hk ht, .restStalled h rest hb hk ht⟩
      | fail =>
        obtain ⟨n, hn, e⟩ := runOperation_restFail ho ⟨hv, hb⟩ hk ht
        exact ⟨_, e, .restFailed h rest n hb hk ht hn⟩
      | eos =>
        match rest, hb with
        | [], hb => exact ⟨_, runOperation_nocont ho ⟨hv, hb⟩ hk ht, .nocont h hb hk ht⟩
        | [c], hb => exact ⟨_, runOperation_short ho ⟨hv, hb⟩ hk ht, .short h c hb hk ht⟩
        | c :: p :: rest, hb => exact ⟨_, runOperation_long ho ⟨hv, hb⟩ hk ht, .long h c p rest hb hk ht⟩

/-- The inversion lemma of a DECODE's run. -/
theorem runOperation_decode_next {s t : State} (ho : s.req.op = .holding .decode) (hv : s.work.hdr.valid = false)
    (h : runOperation s = .next t) : DecodeEnding s t := by
  obtain ⟨t', e, d⟩ := runOperation_decode ho hv
  rw [h] at e; cases e; exact d

/-- All the ways an ENCODE of the frame `b :: f` on `s` can go on, by the sink's answer (R170, R179, R237). -/
def EncodeEnding (b : Byte) (f : List Byte) (s t : State) : Prop :=
  (s.snk.answer = .ok ∧ t = endOperation (.noRecord .ok 0)
    { writeHdr b s with snk := { s.snk with content := s.snk.content ++ b :: f } }) ∨
  (s.snk.answer = .fail ∧ t = endOperation (.noRecord .ioFailure 0) (writeHdr b s)) ∨
  (s.snk.answer = .stall ∧ t = writeConsumed 0 (writeObuf (b :: f) (writeHdr b s)))

/-- The inversion lemma of an ENCODE's run: the frame it builds, and the three answers of the sink. -/
theorem runOperation_encode_next {s t : State} (hl : s.req.latched) (ho : s.req.op = .holding .encode)
    (h : runOperation s = .next t) : ∃ b f, frameOf (latchedTpdu s) = b :: f ∧ EncodeEnding b f s t := by
  obtain ⟨b, f, hf, e⟩ := runOperation_encode hl ho
  rw [h] at e
  obtain ⟨t', e', c⟩ := sendFrame_cases (b :: f) (writeHdr b s)
  rw [← e] at e'; cases e'
  exact ⟨b, f, hf, c⟩

/-- A latched request is one of the two operations. -/
theorem op_cases {s : State} (h : s.req.latched) : s.req.op = .holding .decode ∨ s.req.op = .holding .encode := by
  have := Latch.eq_holding h.1
  cases h2 : s.req.op.value <;> rw [h2] at this <;> simp [this]

/-- A latched ENCODE always answers a next state. -/
theorem runOperation_encode_answers {s : State} (hl : s.req.latched) (ho : s.req.op = .holding .encode) :
    ∃ t, runOperation s = .next t := by
  obtain ⟨b, f, -, e⟩ := runOperation_encode hl ho
  obtain ⟨t, e', -⟩ := sendFrame_cases (b :: f) (writeHdr b s)
  exact ⟨t, e.trans e'⟩

/-- The invariant does not look at the host's coming actions. -/
theorem MachineInv.withHost {s : State} (h : MachineInv s) (later : List HostEvent) :
    MachineInv { s with host := later } :=
  ⟨h.1, h.2, h.3, h.4, h.5, h.6, h.7, h.8, h.9, h.10, h.11, h.12, h.13, h.14⟩

/-- A block that has just accepted a request has the invariant, on any source whose position is inside it. -/
theorem acceptRequest_inv {r : Request} {s : State} (h : s.src.pos ≤ s.src.octets.length)
    (hr : requestFits s.limits r = true) : MachineInv (acceptRequest r s) := by
  constructor <;> simp [ReqRegs.latched, WorkRegs.void, h]
  intro ho
  simpa [requestFits, ho] using hr

/-- In a BUSY state with the invariant, the operation's run answers a next state. -/
theorem runOperation_answers {s : State} (hi : MachineInv s) (hb : s.phase = .busy) :
    ∃ t, runOperation s = .next t := by
  obtain ho | ho := op_cases (hi.busyRequest hb)
  · cases hv : s.work.hdr.valid with
    | true =>
      obtain ⟨-, -, hk, ht⟩ := hi.headerTaken hb (by rw [ho]; rfl) hv
      exact ⟨_, runOperation_taken_stall ho hv hk ht⟩
    | false =>
      obtain ⟨t, e, -⟩ := runOperation_decode ho hv
      exact ⟨t, e⟩
  · exact runOperation_encode_answers (hi.busyRequest hb) ho

/-! ### What no form changes -/

/-- A data body that goes on to a buffer read keeps the DECODE frame, if what follows the read does. -/
theorem dataForm_frame {s t : State} {k : List Byte → State → Byte → Result}
    (hk : ∀ r s1 c t1, k r s1 c = .next t1 → DecodeFrame s1 t1)
    (h : takeHeader s (fun _ s1 => takeRest s1 fun r s2 => memRead .cbuf 0 s2 (k r s2)) = .next t) :
    DecodeFrame s t := by
  refine takeHeader_frame (fun _ s1 h2 => takeRest_frame (fun _ s2 h3 => ?_) h2) h
  obtain ⟨c, -, -, h4⟩ := memRead_next h3
  exact hk _ _ _ _ h4

/-- No form touches the host's coming actions, the latched request (R25), the parameters, or where the operation started. -/
theorem exec_keeps_request {i : Instr} {s t : State} (h : exec i s = .next t) :
    t.host = s.host ∧ t.req = s.req ∧ t.ports = s.ports ∧ t.limits = s.limits ∧ t.opStart = s.opStart := by
  have dec : DecodeFrame s t → t.host = s.host ∧ t.req = s.req ∧ t.ports = s.ports ∧ t.limits = s.limits ∧ t.opStart = s.opStart :=
    fun f => ⟨f.host, f.req, f.ports, f.limits, f.opStart⟩
  have enc : ∀ b frame, sendFrame (writeObuf frame (writeHdr b s)) = .next t →
      t.host = s.host ∧ t.req = s.req ∧ t.ports = s.ports ∧ t.limits = s.limits ∧ t.opStart = s.opStart := fun b frame h =>
    have f := sendFrame_frame h
    ⟨f.2.2.2.2.2.2.1, f.2.2.2.1, f.1, f.2.1, f.2.2.1⟩
  cases i with
  | decodeNohdr =>
    exact dec (takeHeader_frame (k := fun _ _ => .fault .headerPresent) (fun _ _ h => by cases h) h)
  | decodeUcd q c => exact dec (takeHeader_frame (fun _ _ h => ending_frame h) h)
  | decodeNcd q c => exact dec (takeHeader_frame (fun _ _ h => ending_frame h) h)
  | decodeUdpNocont q c =>
    exact dec (takeHeader_frame (fun _ _ h1 => takeRest_frame (fun _ _ h2 => ending_frame h2) h1) h)
  | decodeNdpNocont q c =>
    exact dec (takeHeader_frame (fun _ _ h1 => takeRest_frame (fun _ _ h2 => ending_frame h2) h1) h)
  | decodeUdpShort q c => exact dec (dataForm_frame (fun _ _ _ _ h => ending_frame h) h)
  | decodeUdpLong q c => exact dec (dataForm_frame (fun _ _ _ _ h => ending_frame h) h)
  | decodeNdpShort q c => exact dec (dataForm_frame (fun _ _ _ _ h => ending_frame h) h)
  | decodeNdpLong q c => exact dec (dataForm_frame (fun _ _ _ _ h => ending_frame h) h)
  | encodeUcd => obtain ⟨_, e⟩ := encodeControl_next h; exact enc _ _ e
  | encodeNcd => obtain ⟨_, e⟩ := encodeControl_next h; exact enc _ _ e
  | encodeUdpEmpty => obtain ⟨_, _, e⟩ := encodeEmpty_next h; exact enc _ _ e
  | encodeNdpEmpty => obtain ⟨_, _, e⟩ := encodeEmpty_next h; exact enc _ _ e
  | encodeUdpPayload => obtain ⟨_, _, _, e⟩ := encodeCopy_next h; exact enc _ _ e
  | encodeNdpPayload => obtain ⟨_, _, _, e⟩ := encodeCopy_next h; exact enc _ _ e

/-- Nor does running the operation. -/
theorem runOperation_keeps_request {s t : State} (h : runOperation s = .next t) :
    t.host = s.host ∧ t.req = s.req ∧ t.ports = s.ports ∧ t.limits = s.limits ∧ t.opStart = s.opStart := by
  unfold runOperation at h
  split at h
  · split at h
    · exact exec_keeps_request h
    · cases h
  · have f := takeHeader_frame (fun _ _ h => by cases h; exact DecodeFrame.refl _) h
    exact ⟨f.host, f.req, f.ports, f.limits, f.opStart⟩
  · cases h

/-- Every latched ENCODE request presents one of the forms (R96, R180). -/
theorem presents_encode {s : State} (hl : s.req.latched) (ho : s.req.op = .holding .encode) : ∃ i, Presents s i := by
  obtain ⟨-, hk, -, -, -, hp⟩ := hl
  cases hpay : s.req.payload.value with
  | nil =>
    exact ⟨_, dispatchWord 1 0b00 1 (s.req.kind.value ++ 0#6),
      by rw [fetch_encode ho]; simp [fetchEncode, hk, hp, hpay, payloadClass, Op.code], decode_payloadClass0 _⟩
  | cons p l =>
    exact ⟨_, dispatchWord 1 0b01 1 (s.req.kind.value ++ 0#6),
      by rw [fetch_encode ho]; simp [fetchEncode, hk, hp, hpay, payloadClass, Op.code], decode_payloadClass1 _⟩

end Sys2Proof.Machine
end

