-- ==== Sys2Proof/Laws/Relations.lean ====
section
/-! SUPPORT. `encode` and `decode` of 42_encode.md section 5 in terms of the machine's runs: which frame a record encodes to, and
what each format of frame decodes to. -/

namespace Sys2Proof.Machine

/-- A port wide enough for the wire field keeps every bit the frame uses, so latching a record does not change its frame (R171, D9). -/
theorem frameOf_latch (t : Tpdu) (op : Op) (s : State) :
    frameOf (latchedTpdu (acceptRequest ⟨op, t⟩ s)) = frameOf t := by
  have h1 : seqBits (latchedTpdu (acceptRequest ⟨op, t⟩ s)) = seqBits t := by
    apply BitVec.eq_of_toNat_eq
    simp [seqBits, latchedTpdu, PortWidths.seqW, pow_add]
  have h2 : ctlBits (latchedTpdu (acceptRequest ⟨op, t⟩ s)) = ctlBits t := by
    apply BitVec.eq_of_toNat_eq
    simp [ctlBits, latchedTpdu, PortWidths.ctlW, pow_add]
  simp only [frameOf, h1, h2]
  rfl

/-- A record encodes to the frame that `frameOf` gives. -/
theorem encodesTo_frameOf (t : Tpdu) : EncodesTo t (frameOf t) := by
  intro s hp hh ha hr
  have e1 := step_idle_cons hp hh
  simp only [idleEvent, presentRequest_fits (s := { s with host := [] }) hr] at e1
  generalize hs1 : acceptRequest (encodeRequest t) { s with host := [] } = s1 at e1
  have hl : s1.req.latched := by rw [← hs1]; simp [ReqRegs.latched]
  have ho : s1.req.op = .holding .encode := by rw [← hs1]; rfl
  have ht : frameOf (latchedTpdu s1) = frameOf t := by rw [← hs1]; exact frameOf_latch _ _ _
  have hk : s1.snk = s.snk := by rw [← hs1]; rfl
  obtain ⟨u, e⟩ := runOperation_encode_answers hl ho
  have e2 : step s1 = .next u := by rw [step_busy_nil (by rw [← hs1]; rfl) (by rw [← hs1]; rfl), runWithinLimit_fits (frameFits_encode ho), e]
  refine ⟨u, by simp [runSteps, e1, e2], ?_⟩
  rw [← hk] at ha
  obtain ⟨b, f, hf, hu⟩ := runOperation_encode_next hl ho e
  obtain ⟨-, rfl⟩ | ⟨a, -⟩ | ⟨a, -⟩ := hu
  · exact ⟨rfl, rfl, by rw [← ht, hf, ← hk]; rfl⟩
  · rw [ha] at a; cases a
  · rw [ha] at a; cases a

/-- A record encodes to no other frame. -/
theorem encodesTo_unique {t : Tpdu} {frame : List Byte} (h : EncodesTo t frame) : frame = frameOf t := by
  let s : State := { State.reset with host := [.request (encodeRequest t)] }
  obtain ⟨a, ha, -, -, h1⟩ := h s rfl rfl rfl rfl
  obtain ⟨b, hb, -, -, h2⟩ := encodesTo_frameOf t s rfl rfl rfl rfl
  rw [ha] at hb; cases hb
  rw [h1] at h2
  exact List.append_cancel_left h2

/-- What a DECODE's run gives on a source with exactly `frame` is what `frame` decodes to. -/
theorem decodesTo_of_run {frame : List Byte} {t : Tpdu} {n : Nat}
    (hrun : ∀ s : State, s.req.op = .holding .decode → s.work.hdr.valid = false → srcBytes s = frame →
      s.src.term = .eos → ∃ s', runOperation s = .next s' ∧ s'.phase = .idle ∧
        s'.res.status = .holding Status.ok.code ∧ s'.res.record = some t ∧ s'.res.consumed = .holding n) :
    DecodesTo frame t n := by
  intro s hp hh hb ht hf
  have e1 := step_idle_cons hp hh
  simp only [idleEvent, presentRequest_fits (s := { s with host := [] }) (requestFits_decode _)] at e1
  generalize hs1 : acceptRequest decodeRequest { s with host := [] } = s1 at e1
  obtain ⟨u, e, r⟩ := hrun s1 (by rw [← hs1]; rfl) (by rw [← hs1]; rfl) (by rw [← hs1]; exact hb)
    (by rw [← hs1]; exact ht)
  have hfit : frameFits s1 = true := frameFits_decode (by rw [← hs1]; rfl) (by rw [← hs1]; rfl) (by
    rw [← hs1]; change withinLimit s.limits.maxFrame (srcBytes s).length = true; rw [hb]; exact hf)
  have e2 : step s1 = .next u := by rw [step_busy_nil (by rw [← hs1]; rfl) (by rw [← hs1]; rfl), runWithinLimit_fits hfit, e]
  exact ⟨u, by simp [runSteps, e1, e2], r⟩

/-- A control frame (R143, R144). -/
theorem decodesTo_control {h : Byte} (hk : kindMux (extPt h) = .control) :
    DecodesTo [h] ⟨extPt h, (extSeq h).toNat, (extLow2 h).toNat, 0, []⟩ 1 :=
  decodesTo_of_run fun _ ho hv hb _ => ⟨_, runOperation_control ho ⟨hv, hb⟩ hk, rfl, rfl, rfl, rfl⟩

/-- A short data frame (R146, R148). -/
theorem decodesTo_short {h c : Byte} (hk : kindMux (extPt h) = .data) :
    DecodesTo [h, c] ⟨extPt h, (extSeq h).toNat, 0, joinSc (extLow2 h) (extSlo c), [extP6 c]⟩ 2 :=
  decodesTo_of_run fun _ ho hv hb ht => ⟨_, runOperation_short ho ⟨hv, hb⟩ hk ht, rfl, rfl, rfl, rfl⟩

/-- A long data frame (R147, R149). -/
theorem decodesTo_long {h c p : Byte} {rest : List Byte} (hk : kindMux (extPt h) = .data) :
    DecodesTo (h :: c :: p :: rest)
      ⟨extPt h, (extSeq h).toNat, 0, joinSc (extLow2 h) (extSlo c), p :: rest⟩ (rest.length + 3) :=
  decodesTo_of_run fun _ ho hv hb ht => ⟨_, runOperation_long ho ⟨hv, hb⟩ hk ht, rfl, rfl, rfl, rfl⟩

end Sys2Proof.Machine
end

