-- ==== Sys2Proof/Tests/Slice0.lean ====
section
/-! SUPPORT. Tests: the WellFormed smoke, words written out from the encodings, one step for each form, and a witness for the
hypotheses of each statement. Expected results come from spec/95_test_vectors.md (vector ids in the names: V, E, Q, X, K, M) or
from hand calculation with the rule named beside the test. -/

namespace Sys2Proof.Tests

open Sys2Proof Sys2Proof.Machine

/-! ### Helpers -/

/-- A BUSY block whose DECODE request was just accepted, on a source. -/
def busyDecode (octets : List Byte) (term : SrcTerm) : State :=
  acceptRequest decodeRequest { State.reset with src := ⟨octets, 0, term⟩ }

/-- A BUSY block whose ENCODE request was just accepted, with a sink. -/
def busyEncode (t : Tpdu) (answer : SinkAnswer) : State :=
  acceptRequest (encodeRequest t) { State.reset with snk := ⟨[], answer⟩ }

/-- An IDLE block with the host's coming actions. -/
def idleWith (host : List HostEvent) : State := { State.reset with host := host }

/-- The state a step answers. -/
def after : Result → Option State
  | .next t => some t
  | .fault _ => none
  | .refused _ => none

/-- The phase a step leads to, or the name of its refusal. -/
def ran : Result → Option Phase ⊕ Refusal
  | .next t => .inl (some t.phase)
  | .fault _ => .inl none
  | .refused why => .inr why

/-- The phase, the result registers and the octets left in the source, after a DECODE's step. -/
def decoded (s : State) : Option (Phase × ResRegs × List Byte) :=
  (after (step s)).map fun t => (t.phase, t.res, srcBytes t)

/-- The phase, the status and the sink's content after an ENCODE's step. -/
def encoded (s : State) : Option (Phase × Latch (BitVec 2) × List Byte) :=
  (after (step s)).map fun t => (t.phase, t.res.status, t.snk.content)

/-- The result registers after a DECODE that ends `OK`. -/
def okRecord (kind : BitVec 2) (seq : BitVec 4) (ctl : BitVec 2) (sc : BitVec 4) (payload : List Byte) (n : Nat) : ResRegs :=
  ⟨.holding 0, .holding kind, .holding seq, .holding ctl, .holding sc, .holding payload, .holding n⟩

/-- The result registers after an error. -/
def errorWith (code : BitVec 2) (n : Nat) : ResRegs :=
  ⟨.holding code, .void, .void, .void, .void, .void, .holding n⟩

/-! ### WellFormed: each check refuses a term that breaks it (R41, R96) -/

theorem test_wf_accepts_control : (⟨0b10, 7, 3, 0, []⟩ : Tpdu).wf = true := by decide
theorem test_wf_accepts_data : (⟨0b01, 15, 0, 15, [63]⟩ : Tpdu).wf = true := by decide
theorem test_wf_accepts_long_first_byte : (⟨0b00, 0, 0, 2, [0xAA, 0xBB]⟩ : Tpdu).wf = true := by decide
theorem test_wf_refuses_seq_16 : (⟨0b10, 16, 0, 0, []⟩ : Tpdu).fieldsInRange = false := by decide
theorem test_wf_refuses_ctl_4 : (⟨0b10, 0, 4, 0, []⟩ : Tpdu).fieldsInRange = false := by decide
theorem test_wf_refuses_control_sc : (⟨0b10, 0, 0, 9, []⟩ : Tpdu).controlInactiveZero = false := by decide
theorem test_wf_refuses_control_payload : (⟨0b11, 0, 0, 0, [0]⟩ : Tpdu).controlInactiveZero = false := by decide
theorem test_wf_refuses_data_ctl : (⟨0b00, 0, 3, 0, []⟩ : Tpdu).dataInactiveZero = false := by decide
theorem test_wf_refuses_short_64 : (⟨0b01, 0, 0, 0, [64]⟩ : Tpdu).shortPayloadInRange = false := by decide
theorem test_wf_refuses_each : [(⟨0b10, 16, 0, 0, []⟩ : Tpdu), ⟨0b10, 0, 4, 0, []⟩, ⟨0b10, 0, 0, 9, []⟩,
    ⟨0b11, 0, 0, 0, [0]⟩, ⟨0b00, 0, 3, 0, []⟩, ⟨0b01, 0, 0, 0, [64]⟩].map Tpdu.wf = List.replicate 6 false := by decide

theorem test_word_decode_rest_class_3 : DWord.canOccur 0b111000000000 = false ∧
    decode 0b111000000000 = .error .decodeRestClass3 := by decide
theorem test_word_encode_without_header : DWord.canOccur 0b000100000000 = false ∧
    decode 0b000100000000 = .error .encodeWithoutHeaderBit := by decide
theorem test_word_encode_rest_class_2 : DWord.canOccur 0b110100000000 = false ∧
    decode 0b110100000000 = .error .encodeRestClass2or3 := by decide
theorem test_word_control_with_rest_class : DWord.canOccur 0b101010000000 = false := by decide

/-! ### Words written out bit by bit from the patterns of R97 -/

theorem test_word_decodeNohdr : decode 0b000000000000 = .ok .decodeNohdr := by decide
theorem test_word_decodeUcd : decode 0b100010000010 = .ok (.decodeUcd 0 2) := by decide
theorem test_word_decodeNcd : decode 0b100011010110 = .ok (.decodeNcd 5 2) := by decide
theorem test_word_decodeUdpNocont : decode 0b100000000010 = .ok (.decodeUdpNocont 0 2) := by decide
theorem test_word_decodeUdpShort : decode 0b101000000010 = .ok (.decodeUdpShort 0 2) := by decide
theorem test_word_decodeUdpLong : decode 0b110000111100 = .ok (.decodeUdpLong 15 0) := by decide
theorem test_word_decodeNdpNocont : decode 0b100001111100 = .ok (.decodeNdpNocont 15 0) := by decide
theorem test_word_decodeNdpShort : decode 0b101001110101 = .ok (.decodeNdpShort 13 1) := by decide
theorem test_word_decodeNdpLong : decode 0b110001001111 = .ok (.decodeNdpLong 3 3) := by decide
theorem test_word_encodeUcd : decode 0b100110000000 = .ok .encodeUcd := by decide
theorem test_word_encodeUcd_E14 : decode 0b101110000000 = .ok .encodeUcd := by decide
theorem test_word_encodeNcd : decode 0b100111000000 = .ok .encodeNcd := by decide
theorem test_word_encodeUdpEmpty : decode 0b100100000000 = .ok .encodeUdpEmpty := by decide
theorem test_word_encodeUdpPayload : decode 0b101100000000 = .ok .encodeUdpPayload := by decide
theorem test_word_encodeNdpEmpty : decode 0b100101000000 = .ok .encodeNdpEmpty := by decide
theorem test_word_encodeNdpPayload : decode 0b101101000000 = .ok .encodeNdpPayload := by decide

/-- The `D` column of 95_test_vectors.md 2.4 and 2.5, from the state that each vector gives. -/
theorem test_word_built_by_decode :
    [fetch (busyDecode [] .fail), fetch (busyDecode [0x81] .stall), fetch (busyDecode [0x9F] .eos),
     fetch (busyDecode [0x7C] .eos), fetch (busyDecode [0x00, 0x40, 0x01] .fail), fetch (busyDecode [0x75, 0x65] .eos),
     fetch (busyDecode [0x4F, 0xC5, 0xAA] .eos), fetch (busyDecode [0x00, 0x81] .stall)] =
    [.word 0x000, .word 0x881, .word 0x89F, .word 0x87C, .word 0x800, .word 0xA75, .word 0xC4F, .stalled] := by decide
theorem test_word_built_by_encode :
    [fetch (busyEncode ⟨2, 0, 0, 9, [1, 2]⟩ .ok), fetch (busyEncode ⟨3, 5, 2, 0, []⟩ .ok),
     fetch (busyEncode ⟨0, 0, 3, 0, []⟩ .ok), fetch (busyEncode ⟨1, 13, 0, 5, [0x25]⟩ .ok)] =
    [.word 0xB80, .word 0x9C0, .word 0x900, .word 0xB40] := by decide

/-! ### The sub-blocks (95_test_vectors.md 2.1 to 2.3) -/

theorem test_extractor_X : [extPt 0x7F, extPt 0x80, extLow2 0xFC, extLow2 0x82, extSlo 0x3F, extSlo 0x65] =
    [1, 2, 0, 2, 0, 1] ∧ [extSeq 0x3C, extSeq 0xC3, extSeq 0x8D, extSeq 0x75, joinSc 2 1, joinSc 1 1] =
    [15, 0, 3, 13, 9, 5] ∧ [extP6 0xC0, extP6 0xFF, extP6 0x65] = [0x00, 0x3F, 0x25] := by decide
theorem test_packer_K : [packHeader 2#2 0#8 1#8, packHeader 1#2 13#8 1#2, packHeader 3#2 31#8 7#8, packHeader 2#2 16#8 4#8] =
    [0x81, 0x75, 0xFF, 0x80] ∧ [packCont 3 0x00, packCont 2 0xFF, packCont 1 0x25, packCont 0 0xC5, packCont 3 0x3F] =
    [0xC0, 0xBF, 0x65, 0x05, 0xFF] ∧ [scHi 9, scLo 9, scHi 12, scLo 12] = [2, 1, 3, 0] := by decide
theorem test_routers_M : [routeDec 0, routeDec 1, routeDec 2, routeDec 255] = [.tooShort, .short, .long, .long] ∧
    [routeEnc 0, routeEnc 1, routeEnc 2] = [.empty, .copy, .copy] ∧
    [kindMux 0, kindMux 1, kindMux 2, kindMux 3] = [.data, .data, .control, .control] := by decide

/-! ### One step for each DECODE form (95_test_vectors.md 2.4, 2.7) -/

theorem test_decodeNohdr_V1 : decoded (busyDecode [] .eos) = some (.idle, errorWith 1 0, []) := by decide
theorem test_decodeNohdr_V2 : decoded (busyDecode [] .fail) = some (.idle, errorWith 3 0, []) := by decide
theorem test_decodeUcd_V6 :
    decoded (busyDecode [0x82, 0x11, 0x22] .eos) = some (.idle, okRecord 2 0 2 0 [] 1, [0x11, 0x22]) := by decide
theorem test_decodeUcd_V5 : decoded (busyDecode [0x81] .stall) = some (.idle, okRecord 2 0 1 0 [] 1, []) := by decide
theorem test_decodeNcd_V8 : decoded (busyDecode [0xD6] .eos) = some (.idle, okRecord 3 5 2 0 [] 1, []) := by decide
theorem test_decodeNcd_V9 : decoded (busyDecode [0xFF] .eos) = some (.idle, okRecord 3 15 3 0 [] 1, []) := by decide
theorem test_decodeUdpNocont_V11 : decoded (busyDecode [0x00] .eos) = some (.idle, errorWith 2 1, []) := by decide
theorem test_decodeUdpNocont_V14 : (after (step (busyDecode [0x00, 0x40, 0x01] .fail))).map (fun t => (t.phase, t.res.status, t.res.kind)) =
    some (.idle, .holding 3, .void) := by decide
theorem test_decodeNdpNocont_V12 : decoded (busyDecode [0x7C] .eos) = some (.idle, errorWith 2 1, []) := by decide
theorem test_decodeNdpNocont_V13 : (after (step (busyDecode [0x40] .fail))).map (·.res) = some (errorWith 3 1) := by
  obtain ⟨n, hn, e⟩ := runOperation_restFail (s := busyDecode [0x40] .fail) (h := 0x40) (rest := []) rfl ⟨rfl, rfl⟩
    (by decide) rfl
  obtain rfl : n = 0 := Nat.le_zero.mp hn
  rw [step_busy_nil rfl rfl, runWithinLimit_fits rfl, e]
  rfl
theorem test_decodeUdpShort_V17 :
    decoded (busyDecode [0x00, 0xBF] .eos) = some (.idle, okRecord 0 0 0 2 [0x3F] 2, []) := by decide
theorem test_decodeUdpShort_V18 :
    decoded (busyDecode [0x02, 0x40] .eos) = some (.idle, okRecord 0 0 0 9 [0x00] 2, []) := by decide
theorem test_decodeUdpLong_V22 :
    decoded (busyDecode [0x03, 0xFF, 0xAB] .eos) = some (.idle, okRecord 0 0 0 15 [0xAB] 3, []) := by decide
theorem test_decodeUdpLong_V25 : decoded (busyDecode [0x01, 0x00, 0xFF, 0xFE, 0xFD] .eos) =
    some (.idle, okRecord 0 0 0 4 [0xFF, 0xFE, 0xFD] 5, []) := by decide
theorem test_decodeNdpShort_V19 :
    decoded (busyDecode [0x75, 0x65] .eos) = some (.idle, okRecord 1 13 0 5 [0x25] 2, []) := by decide
theorem test_decodeNdpShort_V20 :
    decoded (busyDecode [0x7C, 0xC0] .eos) = some (.idle, okRecord 1 15 0 3 [0x00] 2, []) := by decide
theorem test_decodeNdpLong_V23 :
    decoded (busyDecode [0x4F, 0xC5, 0xAA] .eos) = some (.idle, okRecord 1 3 0 15 [0xAA] 3, []) := by decide
theorem test_decodeNdpLong_V26_stalls :
    decoded (busyDecode [0x40, 0x81] .stall) = some (.busy, .void, [0x81]) := by decide

/-! ### One step for each ENCODE form (95_test_vectors.md 2.5, 2.7) -/

theorem test_encodeUcd_E14 :
    encoded (busyEncode ⟨2, 0, 0, 9, [0x01, 0x02]⟩ .ok) = some (.idle, .holding 0, [0x80]) := by decide
theorem test_encodeUcd_stalled_sink : encoded (busyEncode ⟨2, 0, 1, 0, []⟩ .stall) = some (.busy, .void, []) := by decide
theorem test_encodeNcd_E3 : encoded (busyEncode ⟨3, 5, 2, 0, []⟩ .ok) = some (.idle, .holding 0, [0xD6]) := by decide
theorem test_encodeNcd_Q6 : encoded (busyEncode ⟨3, 99, 99, 0, []⟩ .ok) = some (.idle, .holding 0, [0xCF]) := by decide
theorem test_encodeUdpEmpty_E13 : encoded (busyEncode ⟨0, 0, 3, 0, []⟩ .ok) = some (.idle, .holding 0, [0, 0]) := by decide
theorem test_encodeUdpEmpty_E18 : encoded (busyEncode ⟨0, 0, 0, 0, []⟩ .fail) = some (.idle, .holding 3, []) := by decide
theorem test_encodeUdpPayload_E9 :
    encoded (busyEncode ⟨0, 0, 0, 2, [0xFF]⟩ .ok) = some (.idle, .holding 0, [0x00, 0xBF]) := by decide
theorem test_encodeUdpPayload_E17 :
    encoded (busyEncode ⟨0, 0, 0, 12, [0xAA, 0xBB]⟩ .ok) = some (.idle, .holding 0, [0x03, 0x2A, 0xBB]) := by decide
theorem test_encodeNdpEmpty_E16 : encoded (busyEncode ⟨1, 15, 0, 3, []⟩ .ok) = some (.idle, .holding 0, [0x7C, 0xC0]) := by decide
theorem test_encodeNdpEmpty_E19 : encoded (busyEncode ⟨1, 16, 0, 0, []⟩ .ok) = some (.idle, .holding 0, [0x40, 0x00]) := by decide
theorem test_encodeNdpPayload_E11 :
    encoded (busyEncode ⟨1, 13, 0, 5, [0x25]⟩ .ok) = some (.idle, .holding 0, [0x75, 0x65]) := by decide
theorem test_encodeNdpPayload_E12 :
    encoded (busyEncode ⟨1, 3, 0, 15, [0xC5, 0xAA]⟩ .ok) = some (.idle, .holding 0, [0x4F, 0xC5, 0xAA]) := by decide

/-- R171, D9: on ports of the least widths, 4 and 2 bits, and on wider ones, 31 and 7 still encode as 15 and 3 (E3's form). -/
theorem test_encode_on_other_ports :
    [(⟨0, 0⟩ : PortWidths), ⟨1, 3⟩, ⟨28, 30⟩].map (fun p =>
      encoded (acceptRequest (encodeRequest ⟨3, 31, 7, 0, []⟩) (State.resetWith p Config.noLimits))) =
    List.replicate 3 (some (.idle, .holding 0, [0xFF])) := by decide
/-- R170: `RES_CONSUMED <- 0` stands before the sink write, so an ENCODE hung at its sink has written it. -/
theorem test_hung_encode_has_its_count :
    (after (step (busyEncode ⟨2, 0, 1, 0, []⟩ .stall))).map (fun t => (t.phase, t.res, t.work.obuf)) =
    some (.busy, { ResRegs.void with consumed := .holding 0 }, .holding [0x81]) := by decide
/-- R37: to the host it has no value until the operation ends. A read in the hung ENCODE faults; a read after the ending succeeds. -/
theorem test_count_is_read_only_after_the_end :
    [SinkAnswer.stall, .fail, .ok].map (fun answer =>
      (after (step (busyEncode ⟨2, 0, 1, 0, []⟩ answer))).map fun t =>
        ((after (step { t with host := [.readResult .consumed] })).map (·.res.consumed))) =
    [some none, some (some (.holding 0)), some (some (.holding 0))] := by decide
/-- D17, I11: a payload and a frame at the limit run, and one octet more is refused by name; a control frame is one octet, whatever
follows it (R152). -/
theorem test_max_payload :
    [[0x25], [0x25, 0x26]].map (fun p => ran (step { State.resetWith Config.defaultPorts ⟨none, some 1⟩ with
      host := [.request (encodeRequest ⟨1, 13, 0, 5, p⟩)] })) =
    [.inl (some .busy), .inr .payloadTooLong] := by decide
theorem test_max_frame :
    [[0x75, 0x65], [0x75, 0x65, 0x00], [0x80, 0x00, 0x00]].map (fun f => ran (step (acceptRequest decodeRequest
      { State.resetWith Config.defaultPorts ⟨some 2, none⟩ with src := ⟨f, 0, .eos⟩ }))) =
    [.inl (some .idle), .inr .frameTooLong, .inl (some .idle)] := by decide
/-- R69: `CBUF` and `OBUF` hold no value after the operation. -/
theorem test_buffers_end_with_operation :
    [busyDecode [0x75, 0x65] .eos, busyDecode [0x7C] .eos, busyEncode ⟨1, 13, 0, 5, [0x25]⟩ .ok,
      busyEncode ⟨1, 13, 0, 5, [0x25]⟩ .fail].map (fun s =>
        (after (step s)).map fun t => (t.phase, t.work.cbuf, t.work.obuf)) =
    List.replicate 4 (some (.idle, .void, .void)) := by decide

/-! ### Steps of the host (R24, R33, R70, R230) -/

theorem test_request_accepted : (after (step (idleWith [.request decodeRequest]))).map (fun t => (t.phase, t.req.op, t.host)) =
    some (.busy, .holding .decode, []) := by decide
theorem test_reset_stays_idle : after (step State.reset) = some State.reset := by decide
theorem test_read_of_void_status_faults : step (idleWith [.readResult .status]) = .fault (.noValue (.result .status)) := rfl
theorem test_foreign_read_refused :
    step { busyDecode [0x00] .eos with host := [.takeFromSource 1] } = .refused .foreignSourceRead := rfl

/-! ### Witnesses: a concrete state that meets all the hypotheses of each statement, clause by clause

Each theorem is named after the statement of Certificates/Slice0/Obligations.lean whose hypotheses it meets. -/

/-- A BUSY DECODE that has taken its header `0x40` and waits for the rest. -/
def hangingDecode : State := afterHeader 0x40 (busyDecode [0x40, 0x81] .stall)

theorem busyDecode_inv (octets : List Byte) (term : SrcTerm) : MachineInv (busyDecode octets term) :=
  acceptRequest_inv (Nat.zero_le _) rfl

theorem busyEncode_inv (t : Tpdu) (answer : SinkAnswer) : MachineInv (busyEncode t answer) :=
  acceptRequest_inv (Nat.zero_le _) rfl

theorem hangingDecode_inv : MachineInv hangingDecode := by
  constructor <;>
    simp [hangingDecode, afterHeader, busyDecode, acceptRequest, ReqRegs.latched, ResRegs.recordSomewhere, ResRegs.void,
      State.reset, decodeRequest, WorkRegs.void]
  decide

theorem witness_ExactlyOneRowMatchesEachWord : DWord.canOccur 0x882 = true ∧ DWord.canOccur 0xFFF = false ∧
    DWord.canOccur 0x000 = true ∧ DWord.canOccur 0xB7F = true := by decide

theorem witness_DecoderAcceptsExactlyTheTable : (∃ i, decode 0xC4F = .ok i) ∧ ¬ ∃ i, decode 0xE00 = .ok i := by
  refine ⟨⟨.decodeNdpLong 3 3, by decide⟩, ?_⟩
  rintro ⟨i, h⟩
  have e : decode 0xE00 = .error .decodeRestClass3 := by decide
  rw [e] at h
  cases h

theorem witness_EncodeOfDecodeKeepsEveryMeaningfulBit :
    decode 0xA75 = .ok (.decodeNdpShort 13 1) ∧ (0xA75 : DWord).getLsbD 8 = false ∧ (0xA75 : DWord).getLsbD 11 = true := by
  decide

theorem witness_DispatchWord_control :
    (busyDecode [0xFF] .stall).req.op = .holding .decode ∧ HeaderAhead (busyDecode [0xFF] .stall) 0xFF [] ∧
    (0xFF : Byte).getLsbD 7 = true := ⟨rfl, ⟨rfl, rfl⟩, by decide⟩

theorem witness_DispatchWord_data (rest : List Byte) (term : SrcTerm) :
    (busyDecode (0x7F :: rest) term).req.op = .holding .decode ∧
    HeaderAhead (busyDecode (0x7F :: rest) term) 0x7F rest ∧ (0x7F : Byte).getLsbD 7 = false ∧
    (busyDecode (0x7F :: rest) term).src.term = term := ⟨rfl, ⟨rfl, rfl⟩, by decide, rfl⟩

theorem witness_DispatchWord_noHeader (term : SrcTerm) :
    (busyDecode [] term).req.op = .holding .decode ∧ (busyDecode [] term).work.hdr.valid = false ∧
    srcBytes (busyDecode [] term) = [] ∧ (busyDecode [] term).src.term = term := ⟨rfl, rfl, rfl, rfl⟩

theorem witness_DispatchWord_encode (p : List Byte) :
    (busyEncode ⟨3, 0, 0, 0, p⟩ .ok).req.op = .holding .encode ∧ (busyEncode ⟨3, 0, 0, 0, p⟩ .ok).req.kind = .holding 3 ∧
    (busyEncode ⟨3, 0, 0, 0, p⟩ .ok).req.payload = .holding p := ⟨rfl, rfl, rfl⟩

theorem witness_EveryBuiltWordHasItsForm : fetch (busyEncode ⟨2, 0, 0, 9, [1, 2]⟩ .ok) = .word 0xB80 := by decide

theorem witness_StepRunsTheDecodedForm (host : List HostEvent) :
    let s := { busyDecode [0x75, 0x65] .eos with host := host }
    s.phase = .busy ∧ fetch s = .word 0xA75 ∧ decode 0xA75 = .ok (.decodeNdpShort 13 1) ∧ s.host = host ∧ frameFits s = true :=
  ⟨rfl, rfl, by decide, rfl, rfl⟩

theorem witness_ResetClearsTheBlock :
    ((idleWith [.reset]).host = [.reset] ∧ (idleWith [.reset]).phase = .idle) ∧
    ({ hangingDecode with host := [.reset] } : State).host = [.reset] := ⟨⟨rfl, rfl⟩, rfl⟩

theorem witness_ResetInBusy_decode :
    let s := { hangingDecode with host := [.reset] }
    MachineInv s ∧ s.phase = .busy ∧ s.host = [.reset] ∧ s.req.op.value = .decode ∧ s.opStart = 0 ∧
    s.src.pos = 1 := ⟨hangingDecode_inv.withHost _, rfl, rfl, rfl, rfl, rfl⟩

theorem witness_ResetInBusy_encode :
    let s := { busyEncode ⟨2, 0, 1, 0, []⟩ .stall with host := [.reset] }
    MachineInv s ∧ s.phase = .busy ∧ s.host = [.reset] ∧ s.req.op.value = .encode :=
  ⟨(busyEncode_inv _ _).withHost _, rfl, rfl, rfl⟩

/-- An ENCODE during which another agent drained the source: D8's range still starts where the operation did. -/
theorem test_start_kept_by_drain :
    let s : State := { State.reset with src := ⟨[0x80, 0x81], 0, .eos⟩, snk := ⟨[], .stall⟩ }
    (after (step { acceptRequest (encodeRequest ⟨2, 0, 1, 0, []⟩) s with host := [.takeFromSource 2] })).map
      (fun t => (t.opStart, t.src.pos)) = some (0, 2) := by decide

theorem witness_IdleBlockAcceptsRequest (r : Request) :
    (idleWith [.request r]).phase = .idle ∧ (idleWith [.request r]).host = [.request r] ∧
    withinLimit (idleWith [.request r]).limits.maxPayload r.tpdu.payload.length = true := ⟨rfl, rfl, rfl⟩

theorem witness_IdleHostActsOnStreamsOnly (e : HostEvent) : (idleWith [e]).phase = .idle ∧ (idleWith [e]).host = [e] ∧
    (idleWith []).phase = .idle ∧ (idleWith []).host = [] := ⟨rfl, rfl, rfl, rfl⟩

theorem witness_BusyBlockLeavesRequestWaiting :
    let s := { busyDecode [0x82] .eos with host := [.request decodeRequest] }
    s.phase = .busy ∧ s.host = [.request decodeRequest] ∧ ∃ t, step s = .next t := ⟨rfl, rfl, _, rfl⟩

/-- One block fresh from reset, one with the results of an earlier DECODE and its latches. -/
theorem witness_OperationsForgetEarlierOperations :
    let s := idleWith [.request decodeRequest]
    let t := { s with res := okRecord 3 5 2 0 [] 1, work := { s.work with hdr := .holding 0xD6 } }
    s.phase = .idle ∧ t.phase = .idle ∧ s.ports = t.ports ∧ s.limits = t.limits ∧ s.src = t.src ∧ s.snk = t.snk ∧ s.draws = t.draws ∧
    s.host = [.request decodeRequest] ∧ t.host = [.request decodeRequest] ∧ requestFits s.limits decodeRequest = true ∧
    s ≠ t :=
  ⟨rfl, rfl, rfl, rfl, rfl, rfl, rfl, rfl, rfl, rfl, by decide⟩

theorem witness_ResultReadFaultsWithoutValue :
    let s := { idleWith [.readResult .kind] with res := okRecord 3 5 2 0 [] 1 }
    s.host = [.readResult .kind] ∧ s.phase = .idle ∧ s.res.holds .kind = true ∧
    (idleWith [.readResult .kind]).host = [.readResult .kind] ∧ (idleWith [.readResult .kind]).res.holds .kind = false :=
  ⟨rfl, rfl, rfl, rfl, rfl⟩

/-- A hung ENCODE, which has written its count. -/
theorem witness_ResultRead_busy :
    let s := writeConsumed 0 { busyEncode ⟨2, 0, 1, 0, []⟩ .stall with host := [.readResult .consumed] }
    s.host = [.readResult .consumed] ∧ s.phase = .busy ∧ s.res.holds .consumed = true ∧
    step s = .fault (.noValue (.result .consumed)) := ⟨rfl, rfl, rfl, rfl⟩

theorem witness_ForeignAccess_source :
    let s := { busyDecode [0x00] .eos with host := [.takeFromSource 1] }
    s.phase = .busy ∧ s.req.op = .holding .decode ∧ s.host = [.takeFromSource 1] := ⟨rfl, rfl, rfl⟩

theorem witness_ForeignAccess_sink :
    let s := { busyEncode ⟨2, 0, 0, 0, []⟩ .ok with host := [.writeToSink [0xFF]] }
    s.phase = .busy ∧ s.req.op = .holding .encode ∧ s.host = [.writeToSink [0xFF]] := ⟨rfl, rfl, rfl⟩

theorem witness_AccessToTheOtherStream_source :
    let s := { busyEncode ⟨2, 0, 0, 0, []⟩ .ok with src := ⟨[0x80, 0x81], 0, .eos⟩, host := [.takeFromSource 3] }
    s.phase = .busy ∧ s.req.op = .holding .encode ∧ s.host = [.takeFromSource 3] := ⟨rfl, rfl, rfl⟩

theorem witness_AccessToTheOtherStream_sink :
    let s := { busyDecode [0x00] .eos with host := [.writeToSink [0xFF]] }
    s.phase = .busy ∧ s.req.op = .holding .decode ∧ s.host = [.writeToSink [0xFF]] := ⟨rfl, rfl, rfl⟩

theorem witness_DecodeNohdrEndings (term : SrcTerm) :
    (busyDecode [] term).req.op = .holding .decode ∧ (busyDecode [] term).work.hdr.valid = false ∧
    srcBytes (busyDecode [] term) = [] ∧ (busyDecode [] term).src.term = term := ⟨rfl, rfl, rfl, rfl⟩

/-- For the DECODE results: a header of each kind ahead, on a source with any rest and any terminator. -/
theorem witness_DecodeResults (h : Byte) (rest : List Byte) (term : SrcTerm) :
    (busyDecode (h :: rest) term).req.op = .holding .decode ∧ HeaderAhead (busyDecode (h :: rest) term) h rest ∧
    (busyDecode (h :: rest) term).src.term = term := ⟨rfl, ⟨rfl, rfl⟩, rfl⟩

theorem witness_DecodeControlFormsResult :
    (0x82 : Byte).extractLsb' 6 2 = 0b10#2 ∧ (0xFF : Byte).extractLsb' 6 2 = 0b11#2 := by decide

theorem witness_DecodeDataFormsResult :
    (0x3F : Byte).extractLsb' 6 2 = 0b00#2 ∧ (0x40 : Byte).extractLsb' 6 2 = 0b01#2 := by decide

theorem witness_DecodeNocontFormsEndings :
    let s := busyDecode [0x7C] .eos
    s.req.op = .holding .decode ∧ HeaderAhead s 0x7C [] ∧ (0x7C : Byte).extractLsb' 6 2 = 0b01#2 ∧ s.src.term = .eos :=
  ⟨rfl, ⟨rfl, rfl⟩, by decide, rfl⟩

theorem witness_DecodeNocont_fail :
    let s := busyDecode [0x00, 0x40, 0x01] .fail
    s.req.op = .holding .decode ∧ HeaderAhead s 0x00 [0x40, 0x01] ∧ (0x00 : Byte).extractLsb' 6 2 = 0b00#2 ∧
    s.src.term = .fail := ⟨rfl, ⟨rfl, rfl⟩, by decide, rfl⟩

theorem witness_DecodeShortFormsResult :
    let s := busyDecode [0x75, 0x65] .eos
    s.req.op = .holding .decode ∧ HeaderAhead s 0x75 [0x65] ∧ s.src.term = .eos ∧ (0x75 : Byte).extractLsb' 6 2 = 0b01#2 :=
  ⟨rfl, ⟨rfl, rfl⟩, rfl, by decide⟩

theorem witness_DecodeLongFormsResult :
    let s := busyDecode [0x03, 0xFF, 0xAB] .eos
    s.req.op = .holding .decode ∧ HeaderAhead s 0x03 [0xFF, 0xAB] ∧ s.src.term = .eos ∧
    (0x03 : Byte).extractLsb' 6 2 = 0b00#2 := ⟨rfl, ⟨rfl, rfl⟩, rfl, by decide⟩

theorem witness_DataFormsRestRead :
    (HeaderAhead (busyDecode [0x40] .fail) 0x40 [] ∧ (busyDecode [0x40] .fail).src.term = .fail) ∧
    (HeaderAhead (busyDecode [0x40, 0x81] .stall) 0x40 [0x81] ∧ (busyDecode [0x40, 0x81] .stall).src.term = .stall) ∧
    (HeaderAhead (busyDecode [0x40] .eos) 0x40 [] ∧ (busyDecode [0x40] .eos).src.term = .eos ∧
      ∃ t, exec (.decodeNdpNocont 0 0) (busyDecode [0x40] .eos) = .next t) :=
  ⟨⟨⟨rfl, rfl⟩, rfl⟩, ⟨⟨rfl, rfl⟩, rfl⟩, ⟨rfl, rfl⟩, rfl, _, rfl⟩

theorem witness_DecodeFormsFrame :
    (∃ t, exec .decodeNohdr (busyDecode [] .eos) = .next t) ∧
    (∃ t, exec (.decodeUcd 0 2) (busyDecode [0x82] .eos) = .next t) ∧
    (∃ t, exec (.decodeNcd 5 2) (busyDecode [0xD6] .eos) = .next t) ∧
    (∃ t, exec (.decodeUdpNocont 0 0) (busyDecode [0x00] .eos) = .next t) ∧
    (∃ t, exec (.decodeNdpNocont 15 0) (busyDecode [0x7C] .fail) = .next t) ∧
    (∃ t, exec (.decodeUdpShort 0 2) (busyDecode [0x02, 0x40] .eos) = .next t) ∧
    (∃ t, exec (.decodeNdpShort 13 1) (busyDecode [0x75, 0x65] .eos) = .next t) ∧
    (∃ t, exec (.decodeUdpLong 0 3) (busyDecode [0x03, 0xFF, 0xAB] .eos) = .next t) ∧
    (∃ t, exec (.decodeNdpLong 3 3) (busyDecode [0x4F, 0xC5, 0xAA] .eos) = .next t) :=
  ⟨⟨_, rfl⟩, ⟨_, rfl⟩, ⟨_, rfl⟩, ⟨_, rfl⟩, ⟨_, rfl⟩, ⟨_, rfl⟩, ⟨_, rfl⟩, ⟨_, rfl⟩, ⟨_, rfl⟩⟩

theorem witness_ControlDecodeIgnoresRestOfSource :
    let s := busyDecode [0x82, 0x11, 0x22] .eos
    s.req.op = .holding .decode ∧ HeaderAhead s 0x82 [0x11, 0x22] ∧ kindMux (extPt 0x82) = .control :=
  ⟨rfl, ⟨rfl, rfl⟩, by decide⟩

/-- One ending of each sort, for `ConsumedCountsTheOctetsTaken` and `FirstCauseDecidesTheStatus`. -/
theorem witness_Endings :
    ∀ s ∈ [busyDecode [] .eos, busyDecode [] .fail, busyDecode [0x00] .eos, busyDecode [0x80] .fail,
           busyDecode [0x75, 0x65] .eos, busyDecode [0x03, 0xFF, 0xAB] .eos],
      s.req.op = .holding .decode ∧ s.work.hdr.valid = false ∧ s.phase = .busy ∧
      (after (runOperation s)).map (·.phase) = some .idle := by decide

theorem witness_Endings_restFail :
    let s := busyDecode [0x00, 0x40] .fail
    s.req.op = .holding .decode ∧ s.work.hdr.valid = false ∧ s.phase = .busy ∧ kindMux (extPt 0x00) = .data ∧
    ∃ t, runOperation s = .next t ∧ t.phase = .idle := ⟨rfl, rfl, rfl, rfl, _, rfl, rfl⟩

theorem witness_Endings_encode :
    let s := busyEncode ⟨1, 16, 0, 0, []⟩ .fail
    s.req.latched ∧ s.req.op = .holding .encode ∧ s.phase = .busy ∧ ∃ t, runOperation s = .next t ∧ t.phase = .idle :=
  ⟨⟨rfl, rfl, rfl, rfl, rfl, rfl⟩, rfl, rfl, _, rfl, rfl⟩

/-- For the ENCODE results, with each kind, payload and answer of the sink, on ports of any widths. -/
theorem witness_EncodeResults (p : PortWidths) (k : BitVec 2) (q c : Nat) (sc : BitVec 4) (pay : List Byte)
    (answer : SinkAnswer) :
    let s := acceptRequest (encodeRequest ⟨k, q, c, sc, pay⟩) { State.resetWith p Config.noLimits with snk := ⟨[], answer⟩ }
    s.req.op = .holding .encode ∧ s.req.kind = .holding k ∧ s.req.seq = .holding (.ofNat p.seqW q) ∧
    s.req.ctl = .holding (.ofNat p.ctlW c) ∧ s.req.sc = .holding sc ∧ s.req.payload = .holding pay ∧
    s.req.payload.valid = true ∧ s.snk.answer = answer := ⟨rfl, rfl, rfl, rfl, rfl, rfl, rfl, rfl⟩

theorem witness_EncodeFormsFrame :
    (∃ t, exec .encodeUcd (busyEncode ⟨2, 0, 1, 0, []⟩ .ok) = .next t) ∧
    (∃ t, exec .encodeNcd (busyEncode ⟨3, 5, 2, 0, []⟩ .fail) = .next t) ∧
    (∃ t, exec .encodeUdpEmpty (busyEncode ⟨0, 0, 0, 0, []⟩ .stall) = .next t) ∧
    (∃ t, exec .encodeUdpPayload (busyEncode ⟨0, 0, 0, 2, [0xFF]⟩ .ok) = .next t) ∧
    (∃ t, exec .encodeNdpEmpty (busyEncode ⟨1, 15, 0, 3, []⟩ .ok) = .next t) ∧
    (∃ t, exec .encodeNdpPayload (busyEncode ⟨1, 3, 0, 15, [0xC5, 0xAA]⟩ .ok) = .next t) :=
  ⟨⟨_, rfl⟩, ⟨_, rfl⟩, ⟨_, rfl⟩, ⟨_, rfl⟩, ⟨_, rfl⟩, ⟨_, rfl⟩⟩

theorem witness_EncodeRejectsNoRequest :
    let s := busyEncode ⟨3, 99, 99, 9, [0xFF, 0xFF]⟩ .ok
    s.req.latched ∧ s.req.op = .holding .encode := ⟨⟨rfl, rfl, rfl, rfl, rfl, rfl⟩, rfl⟩

/-- One error of each code: a header read and a rest-read that fail, and the sink. -/
theorem witness_ErrorLeavesStatusAndNoRecord :
    (∃ t, runOperation (busyDecode [] .eos) = .next t ∧ t.res.status = .holding 1) ∧
    (∃ t, runOperation (busyDecode [0x00] .eos) = .next t ∧ t.res.status = .holding 2) ∧
    (∃ t, runOperation (busyDecode [] .fail) = .next t ∧ t.res.status = .holding 3) ∧
    (∃ t, runOperation (busyDecode [0x00] .fail) = .next t ∧ t.res.status = .holding 3) ∧
    (∃ t, runOperation (busyEncode ⟨0, 0, 0, 0, []⟩ .fail) = .next t ∧ t.res.status = .holding 3) ∧
    (∀ octets term, MachineInv (busyDecode octets term) ∧ (busyDecode octets term).phase = .busy) ∧
    (MachineInv (busyEncode ⟨0, 0, 0, 0, []⟩ .fail) ∧ (busyEncode ⟨0, 0, 0, 0, []⟩ .fail).phase = .busy) ∧
    srcBytes (busyDecode [0x00] .fail) ≠ [] :=
  ⟨⟨_, rfl, rfl⟩, ⟨_, rfl, rfl⟩, ⟨_, rfl, rfl⟩, ⟨_, rfl, rfl⟩, ⟨_, rfl, rfl⟩,
   fun _ _ => ⟨busyDecode_inv _ _, rfl⟩, ⟨busyEncode_inv _ _, rfl⟩, by decide⟩

theorem witness_OnlyTheHostCanStopTheMachine_fault :
    let s := { busyDecode [] .eos with host := [.readResult .status] }
    MachineInv s ∧ step s = .fault (.noValue (.result .status)) := ⟨(busyDecode_inv _ _).withHost _, rfl⟩

theorem witness_OnlyTheHostCanStopTheMachine_refusal :
    let s := { busyDecode [] .eos with host := [.takeFromSource 1] }
    let u := { busyEncode ⟨2, 0, 0, 0, []⟩ .ok with host := [.writeToSink []] }
    MachineInv s ∧ step s = .refused .foreignSourceRead ∧ MachineInv u ∧ step u = .refused .foreignSinkWrite :=
  ⟨(busyDecode_inv _ _).withHost _, rfl, (busyEncode_inv _ _).withHost _, rfl⟩

theorem witness_OnlyTheHostCanStopTheMachine_limit :
    let s := acceptRequest decodeRequest { State.resetWith Config.defaultPorts ⟨some 1, none⟩ with src := ⟨[0x40, 0x81], 0, .eos⟩ }
    let u := { State.resetWith Config.defaultPorts ⟨none, some 1⟩ with host := [.request (encodeRequest ⟨0, 0, 0, 0, [1, 2]⟩)] }
    MachineInv s ∧ step s = .refused .frameTooLong ∧ MachineInv u ∧ step u = .refused .payloadTooLong := by
  refine ⟨acceptRequest_inv (Nat.zero_le _) rfl, rfl, ?_, rfl⟩
  constructor <;> simp [State.resetWith, ReqRegs.void, WorkRegs.void, ResRegs.void, ResRegs.recordSomewhere, Latch.void, Latch.holding]

theorem witness_OperationEndsWhenStreamsRespond :
    let s := busyDecode [0x75, 0x65] .eos
    MachineInv s ∧ s.phase = .busy ∧ HostLetsRun s ∧ frameFits s = true ∧ s.src.term ≠ .stall ∧
    s.snk.answer ≠ .stall :=
  ⟨busyDecode_inv _ _, rfl, trivial, rfl, by decide, by decide⟩

/-- The four ways an operation hangs: before its header, before its rest, with the header taken, and at the sink. -/
theorem witness_StalledOperationNeverEnds :
    (MachineInv (busyDecode [] .stall) ∧ srcBytes (busyDecode [] .stall) = []) ∧
    (MachineInv (busyDecode [0x40, 0x81] .stall) ∧ srcBytes (busyDecode [0x40, 0x81] .stall) = [0x40, 0x81] ∧
      kindMux (extPt 0x40) = .data) ∧
    (MachineInv hangingDecode ∧ hangingDecode.phase = .busy ∧ hangingDecode.host = [] ∧
      hangingDecode.req.op.value = .decode ∧ hangingDecode.src.term = .stall ∧ hangingDecode.work.hdr.valid = true ∧ frameFits hangingDecode = true) ∧
    (MachineInv (busyEncode ⟨2, 0, 1, 0, []⟩ .stall) ∧ (busyEncode ⟨2, 0, 1, 0, []⟩ .stall).phase = .busy ∧
      (busyEncode ⟨2, 0, 1, 0, []⟩ .stall).host = [] ∧ (busyEncode ⟨2, 0, 1, 0, []⟩ .stall).req.op.value = .encode ∧
      (busyEncode ⟨2, 0, 1, 0, []⟩ .stall).snk.answer = .stall) :=
  ⟨⟨busyDecode_inv _ _, rfl⟩, ⟨busyDecode_inv _ _, rfl, rfl⟩, ⟨hangingDecode_inv, rfl, rfl, rfl, rfl, rfl, rfl⟩,
   busyEncode_inv _ _, rfl, rfl, rfl, rfl⟩

theorem witness_StepKeepsInvariant :
    MachineInv (busyDecode [0x03, 0xFF, 0xAB] .eos) ∧ ∃ t, step (busyDecode [0x03, 0xFF, 0xAB] .eos) = .next t :=
  ⟨busyDecode_inv _ _, _, rfl⟩

/-- `REQ_SEQ = 31` and 15, and a control record with and without inactive fields. -/
theorem witness_UnusedBitsDoNotReachTheFrame :
    let t : Tpdu := ⟨2, 31, 0, 9, [1]⟩
    let u : Tpdu := ⟨2, 15, 4, 0, []⟩
    t.sameUsedBits u ∧ EncodesTo t [0xBC] := by
  refine ⟨⟨rfl, rfl, fun _ => rfl, fun h => ?_⟩, encodesTo_frameOf _⟩
  cases h

/-- The same for a data record: the two bits above the low 6 of the first payload byte, and the control value. -/
theorem witness_UnusedBits_data :
    let t : Tpdu := ⟨0, 0, 3, 2, [0xFF, 0x12]⟩
    let u : Tpdu := ⟨0, 16, 0, 2, [0x3F, 0x12]⟩
    t.sameUsedBits u ∧ EncodesTo t [0x00, 0xBF, 0x12] := by
  refine ⟨⟨rfl, rfl, fun h => ?_, fun _ => ⟨rfl, rfl, rfl, rfl⟩⟩, encodesTo_frameOf _⟩
  cases h

theorem witness_FrameLengthFollowsThePayload :
    isControlKind 0b10 = true ∧ isControlKind 0b01 = false ∧ ([] : List Byte) = [] ∧ ([0x25] : List Byte) ≠ [] := by decide

theorem witness_ControlRecordRoundTrips :
    (⟨2, 7, 3, 0, []⟩ : Tpdu).wf = true ∧ (⟨3, 15, 3, 0, []⟩ : Tpdu).wf = true ∧ isControlKind 2 = true ∧
    isControlKind 3 = true := by decide

theorem witness_ShortRecordRoundTrips :
    (⟨0, 0, 0, 1, []⟩ : Tpdu).wf = true ∧ (⟨1, 13, 0, 5, [63]⟩ : Tpdu).wf = true ∧ isControlKind 0 = false ∧
    isControlKind 1 = false := by decide

theorem witness_LongRecordLosesItsFirstByte :
    let t : Tpdu := ⟨0, 0, 0, 2, [0xAA, 0xBB]⟩
    isControlKind t.kind = false ∧ t.payload = 0xAA :: 0xBB :: [] := by decide

theorem witness_ReencodingADecodedFrame : kindMux (extPt 0x80) = .control ∧ kindMux (extPt 0x7F) = .data := by decide

theorem witness_EncodeHangsAtItsSink :
    let s := busyEncode ⟨1, 13, 0, 5, [0x25]⟩ .stall
    s.req.latched ∧ s.req.op = .holding .encode ∧ s.snk.answer = .stall := ⟨⟨rfl, rfl, rfl, rfl, rfl, rfl⟩, rfl, rfl⟩

theorem witness_StepKeepsParametersAndStart :
    let s := { busyEncode ⟨2, 0, 1, 0, []⟩ .stall with host := [.takeFromSource 1] }
    s.phase = .busy ∧ (∃ t, step s = .next t) ∧ ∃ t, step State.reset = .next t := ⟨rfl, ⟨_, rfl⟩, _, rfl⟩

/-- A block with both limits: a payload of 2 at a `MAX_PAYLOAD` of 1, a header taken and one not, of each path. -/
theorem witness_InputsBeyondTheLimitsAreRefused :
    let l : LengthLimits := ⟨some 1, some 1⟩
    let s : State := { idleWith [.request (encodeRequest ⟨1, 0, 0, 0, [1, 2]⟩)] with limits := l }
    let t : State := { hangingDecode with limits := l }
    let u : State := { busyDecode [0x40, 0x81] .eos with limits := l }
    let v : State := { busyDecode [0x80] .eos with limits := ⟨some 0, none⟩ }
    (s.phase = .idle ∧ s.limits.maxPayload = some 1 ∧ step s = .refused .payloadTooLong) ∧
    (t.phase = .busy ∧ t.req.op = .holding .decode ∧ HostLetsRun t ∧ t.limits.maxFrame = some 1 ∧ t.work.hdr.valid = true ∧
      1 < 1 + (srcBytes t).length) ∧
    (u.phase = .busy ∧ u.req.op = .holding .decode ∧ HostLetsRun u ∧ u.limits.maxFrame = some 1 ∧ HeaderAhead u 0x40 [0x81] ∧
      kindMux (extPt 0x40) = .data ∧ step u = .refused .frameTooLong) ∧
    (v.phase = .busy ∧ v.req.op = .holding .decode ∧ HostLetsRun v ∧ v.limits.maxFrame = some 0 ∧ HeaderAhead v 0x80 [] ∧
      kindMux (extPt 0x80) = .control) :=
  ⟨⟨rfl, rfl, rfl⟩, ⟨rfl, rfl, trivial, rfl, rfl, by decide⟩, ⟨rfl, rfl, trivial, rfl, ⟨rfl, rfl⟩, rfl, rfl⟩,
   rfl, rfl, trivial, rfl, ⟨rfl, rfl⟩, rfl⟩

/-- The same block makes the step where both limits admit the frame. -/
theorem witness_LimitsRefuseAndNeverTruncate :
    let s : State := { busyDecode [0x40, 0x81] .eos with limits := ⟨some 2, some 0⟩ }
    ∃ t, step s = .next t := ⟨_, rfl⟩

theorem witness_PlacedWordRunsNext : withinLimit State.reset.limits.maxFrame 3 = true := rfl

theorem witness_PaddedRecordKeepsItsPayload :
    let t : Tpdu := ⟨0, 0, 0, 2, [0xAB]⟩
    isControlKind t.kind = false ∧ t.payload ≠ [] := by decide

end Sys2Proof.Tests
end

section
/-! PROOFS of 00_scope.md: the parameters of the block (R6, D17), which no step changes, and the length limits, which refuse and
do nothing else. -/

namespace Sys2Proof.Machine

/-! ### What ignores the length limits -/

/-- The same block with other length limits. -/
def State.withLimits (l : LengthLimits) (s : State) : State := { s with limits := l }

/-- `f` ignores the length limits: it answers the same whatever they are, and leaves them in the state it answers. -/
def IgnoresLimits (f : State → Result) : Prop :=
  ∀ (l : LengthLimits) (s : State), f (s.withLimits l) = underLimits l (f s)

/-- What ignores the limits still does after an update `g` that leaves them alone. -/
theorem IgnoresLimits.comp {f : State → Result} {g : State → State} (hf : IgnoresLimits f)
    (hg : ∀ l s, g (s.withLimits l) = (g s).withLimits l) : IgnoresLimits fun s => f (g s) := fun l s =>
  calc f (g (s.withLimits l)) = f ((g s).withLimits l) := by rw [hg]
    _ = underLimits l (f (g s)) := hf l (g s)

/-- A register read ignores the limits, if what follows it does. -/
theorem readReg_ignoresLimits {α : Type} {n : RegName} {reg : State → Latch α} {k : α → State → Result}
    (hreg : ∀ l s, reg (s.withLimits l) = reg s) (hk : ∀ v, IgnoresLimits (k v)) :
    IgnoresLimits fun s => readReg n (reg s) fun v => k v s := by
  intro l s
  simp only [readReg, hreg]
  split
  · exact hk _ l s
  · rfl

/-- So does a buffer read. -/
theorem memRead_ignoresLimits {b : Buffer} {i : Nat} {k : Byte → State → Result} (hk : ∀ c, IgnoresLimits (k c)) :
    IgnoresLimits fun s => memRead b i s fun c => k c s := by
  refine readReg_ignoresLimits (fun l s => ?_) fun bytes l s => ?_
  · cases b <;> rfl
  · cases bytes[i]? with
    | none => rfl
    | some c => exact hk c l s

/-- So does a buffer write. -/
theorem memWrite_ignoresLimits {i : Nat} {v : Byte} {k : State → Result} (hk : IgnoresLimits k) :
    IgnoresLimits fun s => memWrite i v s k := by
  refine readReg_ignoresLimits (fun _ _ => rfl) fun bytes l s => ?_
  split
  · exact hk l (writeObuf (bytes.set i v) s)
  · rfl

/-- So does the header read (R140). -/
theorem takeHeader_ignoresLimits {k : Byte → State → Result} (hk : ∀ b, IgnoresLimits (k b)) :
    IgnoresLimits fun s => takeHeader s k := by
  intro l s
  change takeHeader (s.withLimits l) k = underLimits l (takeHeader s k)
  obtain ⟨hv, e⟩ | ⟨h, rest, ha, e⟩ | ⟨hv, hb, ⟨ht, e⟩ | ⟨ht, e⟩ | ⟨ht, e⟩⟩ := takeHeader_cases s k <;> rw [e]
  · rw [takeHeader_taken (s := s.withLimits l) hv]
    exact hk _ l s
  · rw [takeHeader_ahead (s := s.withLimits l) ha]
    exact hk h l (afterHeader h s)
  · exact takeHeader_eos (s := s.withLimits l) hv hb ht
  · exact takeHeader_fail (s := s.withLimits l) hv hb ht
  · exact takeHeader_stall (s := s.withLimits l) hv hb ht

/-- So does the rest-read (R145): its free draw depends on the count of draws and on the source alone. -/
theorem takeRest_ignoresLimits {k : List Byte → State → Result} (hk : ∀ r, IgnoresLimits (k r)) :
    IgnoresLimits fun s => takeRest s k := by
  intro l s
  change takeRest (s.withLimits l) k = underLimits l (takeRest s k)
  cases ht : s.src.term with
  | eos =>
    rw [takeRest_eos ht, takeRest_eos (s := s.withLimits l) ht]
    exact hk _ l (writeCbuf (srcBytes s) (advanceSrc (srcBytes s).length s))
  | fail =>
    have ht' : (s.withLimits l).src.term = .fail := ht
    simp only [takeRest, srcReadRest, ht, ht']
    rfl
  | stall =>
    rw [takeRest_stall ht]
    exact takeRest_stall (s := s.withLimits l) ht

/-- So does the sink write with the endings of ENCODE (R170). -/
theorem sinkWriteAll_ignoresLimits : IgnoresLimits sinkWriteAll := by
  refine readReg_ignoresLimits (reg := (·.work.obuf)) (fun _ _ => rfl) fun frame l s => ?_
  obtain ⟨_, _, _, _, _, _, _, ⟨_, answer⟩, _, _, _⟩ := s
  cases answer <;> rfl

theorem sendFrame_ignoresLimits : IgnoresLimits sendFrame :=
  sinkWriteAll_ignoresLimits.comp fun _ _ => rfl

/-! ### The forms -/

theorem decodeControl_ignoresLimits (k : BitVec 2) (q : BitVec 4) (c : BitVec 2) :
    IgnoresLimits (decodeControl k q c) :=
  takeHeader_ignoresLimits fun _ _ _ => rfl

theorem decodeNocont_ignoresLimits : IgnoresLimits decodeNocont :=
  takeHeader_ignoresLimits fun _ => takeRest_ignoresLimits fun _ _ _ => rfl

theorem decodeShort_ignoresLimits (k : BitVec 2) (q : BitVec 4) (hi : BitVec 2) :
    IgnoresLimits (decodeShort k q hi) :=
  takeHeader_ignoresLimits fun _ => takeRest_ignoresLimits fun _ => memRead_ignoresLimits fun _ _ _ => rfl

theorem decodeLong_ignoresLimits (k : BitVec 2) (q : BitVec 4) (hi : BitVec 2) :
    IgnoresLimits (decodeLong k q hi) :=
  takeHeader_ignoresLimits fun _ => takeRest_ignoresLimits fun _ => memRead_ignoresLimits fun _ _ _ => rfl

theorem encodeControl_ignoresLimits (k : BitVec 2) : IgnoresLimits (encodeControl k) :=
  readReg_ignoresLimits (reg := (·.req.seq)) (fun _ _ => rfl) fun _ =>
    readReg_ignoresLimits (reg := (·.req.ctl)) (fun _ _ => rfl) fun _ =>
      sendFrame_ignoresLimits.comp fun _ _ => rfl

theorem encodeEmpty_ignoresLimits (k : BitVec 2) : IgnoresLimits (encodeEmpty k) :=
  readReg_ignoresLimits (reg := (·.req.seq)) (fun _ _ => rfl) fun _ =>
    readReg_ignoresLimits (reg := (·.req.sc)) (fun _ _ => rfl) fun _ =>
      sendFrame_ignoresLimits.comp fun _ _ => rfl

theorem encodeCopy_ignoresLimits (k : BitVec 2) : IgnoresLimits (encodeCopy k) :=
  readReg_ignoresLimits (reg := (·.req.seq)) (fun _ _ => rfl) fun seq =>
    readReg_ignoresLimits (reg := (·.req.sc)) (fun _ _ => rfl) fun sc =>
      readReg_ignoresLimits (reg := (·.req.payload)) (fun _ _ => rfl) fun payload =>
        IgnoresLimits.comp
          (g := fun s => writeObuf ([packHeader k seq.bits (scHi sc)] ++ payload)
            (startFrame (packHeader k seq.bits (scHi sc)) s))
          (memRead_ignoresLimits fun _ => memWrite_ignoresLimits sendFrame_ignoresLimits) fun _ _ => rfl

theorem execDecodeNohdr_ignoresLimits : IgnoresLimits execDecodeNohdr :=
  takeHeader_ignoresLimits fun _ _ _ => rfl

/-- No form of the opcode table depends on the limits. -/
theorem exec_ignoresLimits (i : Instr) : IgnoresLimits (exec i) := by
  cases i with
  | decodeNohdr => exact execDecodeNohdr_ignoresLimits
  | decodeUcd q c => exact decodeControl_ignoresLimits _ q c
  | decodeNcd q c => exact decodeControl_ignoresLimits _ q c
  | decodeUdpNocont _ _ => exact decodeNocont_ignoresLimits
  | decodeNdpNocont _ _ => exact decodeNocont_ignoresLimits
  | decodeUdpShort q hi => exact decodeShort_ignoresLimits _ q hi
  | decodeNdpShort q hi => exact decodeShort_ignoresLimits _ q hi
  | decodeUdpLong q hi => exact decodeLong_ignoresLimits _ q hi
  | decodeNdpLong q hi => exact decodeLong_ignoresLimits _ q hi
  | encodeUcd => exact encodeControl_ignoresLimits _
  | encodeNcd => exact encodeControl_ignoresLimits _
  | encodeUdpEmpty => exact encodeEmpty_ignoresLimits _
  | encodeNdpEmpty => exact encodeEmpty_ignoresLimits _
  | encodeUdpPayload => exact encodeCopy_ignoresLimits _
  | encodeNdpPayload => exact encodeCopy_ignoresLimits _

/-! ### What the step is made of -/

/-- The dispatch word is built from the request and the source, whatever the limits (R96). -/
theorem fetch_withLimits (l : LengthLimits) (s : State) : fetch (s.withLimits l) = fetch s := rfl

theorem stallDecode_ignoresLimits : IgnoresLimits stallDecode :=
  takeHeader_ignoresLimits fun _ _ _ => rfl

/-- The operation's run, once it is let run, ignores the limits. -/
theorem runOperation_ignoresLimits : IgnoresLimits runOperation := by
  intro l s
  simp only [runOperation, fetch_withLimits]
  split
  · split
    · exact exec_ignoresLimits _ l s
    · rfl
  · exact stallDecode_ignoresLimits l s
  · rfl

theorem readResult_ignoresLimits (r : ResultReg) : IgnoresLimits (readResult r) := by
  intro l s
  cases h : readable r s with
  | true => rw [readResult_readable h, readResult_readable (s := s.withLimits l) h]; rfl
  | false => rw [readResult_unreadable h, readResult_unreadable (s := s.withLimits l) h]; rfl

theorem busyTakeFromSource_ignoresLimits (n : Nat) : IgnoresLimits (busyTakeFromSource n) :=
  readReg_ignoresLimits (reg := (·.req.op)) (fun _ _ => rfl) fun op _ _ => by cases op <;> rfl

theorem busyWriteToSink_ignoresLimits (bytes : List Byte) : IgnoresLimits (busyWriteToSink bytes) :=
  readReg_ignoresLimits (reg := (·.req.op)) (fun _ _ => rfl) fun op _ _ => by cases op <;> rfl

/-! ### The step refuses by the name of a limit, or ignores the limits -/

/-- Under any limits, `f` refuses by the name of a limit, or answers what it answers without limits. -/
def LimitsOnlyRefuse (f : State → Result) : Prop :=
  ∀ (s : State) (l : LengthLimits),
    f (s.withLimits l) = .refused .frameTooLong ∨ f (s.withLimits l) = .refused .payloadTooLong ∨
    f (s.withLimits l) = underLimits l (f (s.withLimits Config.noLimits))

theorem IgnoresLimits.limitsOnlyRefuse {f : State → Result} (hf : IgnoresLimits f) : LimitsOnlyRefuse f :=
  fun s l => .inr (.inr (hf l (s.withLimits Config.noLimits)))

/-- Without limits, every operation is within `MAX_FRAME`. -/
theorem frameFits_noLimits (s : State) : frameFits (s.withLimits Config.noLimits) = true := by
  unfold frameFits
  split
  · rfl
  · exact withinLimit_none _

/-- Without limits, every request is within `MAX_PAYLOAD`. -/
theorem requestFits_noLimits (r : Request) : requestFits Config.noLimits r = true := by
  unfold requestFits
  split
  · rfl
  · exact withinLimit_none _

theorem runWithinLimit_limitsOnlyRefuse : LimitsOnlyRefuse runWithinLimit := by
  intro s l
  cases h : frameFits (s.withLimits l) with
  | false => exact .inl (runWithinLimit_over h)
  | true =>
    rw [runWithinLimit_fits h, runWithinLimit_fits (frameFits_noLimits s)]
    exact runOperation_ignoresLimits.limitsOnlyRefuse s l

theorem presentRequest_limitsOnlyRefuse (r : Request) : LimitsOnlyRefuse (presentRequest r) := by
  intro s l
  cases h : requestFits l r with
  | false => exact .inr (.inl (presentRequest_over h))
  | true =>
    rw [presentRequest_fits (s := s.withLimits l) h,
      presentRequest_fits (s := s.withLimits Config.noLimits) (requestFits_noLimits r)]
    exact .inr (.inr rfl)

theorem idleEvent_limitsOnlyRefuse (e : HostEvent) : LimitsOnlyRefuse (idleEvent e) := by
  cases e with
  | request r => exact presentRequest_limitsOnlyRefuse r
  | readResult r => exact (readResult_ignoresLimits r).limitsOnlyRefuse
  | quiet | attachSource _ _ | attachSink _ _ | sinkWillAnswer _ | takeFromSource _ | writeToSink _ | reset =>
    exact IgnoresLimits.limitsOnlyRefuse fun _ _ => rfl

theorem busyStep_limitsOnlyRefuse : LimitsOnlyRefuse busyStep := by
  intro s l
  obtain ⟨ports, limits, phase, req, work, res, src, snk, opStart, draws, host⟩ := s
  match host with
  | [] | .request _ :: _ | .attachSource _ _ :: _ | .attachSink _ _ :: _ | .sinkWillAnswer _ :: _ =>
    exact runWithinLimit_limitsOnlyRefuse _ l
  | .quiet :: later =>
    exact runWithinLimit_limitsOnlyRefuse ⟨ports, limits, phase, req, work, res, src, snk, opStart, draws, later⟩ l
  | .readResult r :: later =>
    exact (readResult_ignoresLimits r).limitsOnlyRefuse
      ⟨ports, limits, phase, req, work, res, src, snk, opStart, draws, later⟩ l
  | .takeFromSource n :: later =>
    exact (busyTakeFromSource_ignoresLimits n).limitsOnlyRefuse
      ⟨ports, limits, phase, req, work, res, src, snk, opStart, draws, later⟩ l
  | .writeToSink bytes :: later =>
    exact (busyWriteToSink_ignoresLimits bytes).limitsOnlyRefuse
      ⟨ports, limits, phase, req, work, res, src, snk, opStart, draws, later⟩ l
  | .reset :: later => exact .inr (.inr rfl)

theorem step_limitsOnlyRefuse : LimitsOnlyRefuse step := by
  intro s l
  cases hp : s.phase with
  | busy =>
    rw [step_busy (s := s.withLimits l) hp, step_busy (s := s.withLimits Config.noLimits) hp]
    exact busyStep_limitsOnlyRefuse s l
  | idle =>
    cases hh : s.host with
    | nil =>
      rw [step_idle_nil (s := s.withLimits l) hp hh, step_idle_nil (s := s.withLimits Config.noLimits) hp hh]
      exact .inr (.inr rfl)
    | cons e later =>
      rw [step_idle_cons (s := s.withLimits l) hp hh, step_idle_cons (s := s.withLimits Config.noLimits) hp hh]
      exact idleEvent_limitsOnlyRefuse e { s with host := later } l

/-- Settles O57: the two checks of R6 stand before the run and before the acceptance, and nothing after them depends on the
limits. -/
theorem limitsRefuseAndNeverTruncate : Obligations.LimitsRefuseAndNeverTruncate := by
  unfold Obligations.LimitsRefuseAndNeverTruncate
  exact step_limitsOnlyRefuse

/-! ### What no step changes -/

/-- The parameters are as they were, and so is the note of where the operation started. -/
def KeepsParametersAndStart (s t : State) : Prop :=
  t.ports = s.ports ∧ t.limits = s.limits ∧ t.opStart = s.opStart

theorem readResult_next {r : ResultReg} {s t : State} (h : readResult r s = .next t) : t = s := by
  unfold readResult at h
  split at h <;> cases h
  rfl

/-- An action of the host in IDLE keeps the parameters. Accepting a request notes a new start. -/
theorem idleEvent_keeps_parameters {e : HostEvent} {s t : State} (h : idleEvent e s = .next t) :
    t.ports = s.ports ∧ t.limits = s.limits := by
  cases e with
  | request r =>
    obtain ⟨-, rfl⟩ := presentRequest_next h
    exact ⟨rfl, rfl⟩
  | readResult r =>
    obtain rfl := readResult_next h
    exact ⟨rfl, rfl⟩
  | quiet | attachSource _ _ | attachSink _ _ | sinkWillAnswer _ | takeFromSource _ | writeToSink _ | reset =>
    cases h
    exact ⟨rfl, rfl⟩

theorem busyTakeFromSource_next {n : Nat} {s t : State} (h : busyTakeFromSource n s = .next t) :
    t = takeFromSource n s := by
  obtain ⟨-, h⟩ := readReg_next h
  split at h <;> cases h
  rfl

theorem busyWriteToSink_next {bytes : List Byte} {s t : State} (h : busyWriteToSink bytes s = .next t) :
    t = writeToSink bytes s := by
  obtain ⟨-, h⟩ := readReg_next h
  split at h <;> cases h
  rfl

theorem busyStep_keeps_parametersAndStart {s t : State} (h : busyStep s = .next t) : KeepsParametersAndStart s t := by
  obtain ⟨_, e⟩ | ⟨_, -, e⟩ | ⟨_, _, -, e⟩ | ⟨_, _, -, e⟩ | ⟨_, _, -, e⟩ := busyStep_cases s <;> rw [e] at h
  · obtain ⟨-, h⟩ := runWithinLimit_next h
    obtain ⟨-, -, hports, hlimits, hstart⟩ := runOperation_keeps_request h
    exact ⟨hports, hlimits, hstart⟩
  · cases h
    exact ⟨rfl, rfl, rfl⟩
  · obtain rfl := readResult_next h
    exact ⟨rfl, rfl, rfl⟩
  · obtain rfl := busyTakeFromSource_next h
    exact ⟨rfl, rfl, rfl⟩
  · obtain rfl := busyWriteToSink_next h
    exact ⟨rfl, rfl, rfl⟩

/-- Settles O54, by the phase: in IDLE by the host's action, in BUSY by the cases of the step. -/
theorem stepKeepsParametersAndStart : Obligations.StepKeepsParametersAndStart := by
  unfold Obligations.StepKeepsParametersAndStart
  intro s t h
  cases hp : s.phase with
  | busy =>
    rw [step_busy hp] at h
    obtain ⟨hports, hlimits, hstart⟩ := busyStep_keeps_parametersAndStart h
    exact ⟨hports, hlimits, fun _ => hstart⟩
  | idle =>
    suffices t.ports = s.ports ∧ t.limits = s.limits from ⟨this.1, this.2, fun hb => by cases hb⟩
    cases hh : s.host with
    | nil =>
      rw [step_idle_nil hp hh] at h
      cases h
      exact ⟨rfl, rfl⟩
    | cons e later =>
      rw [step_idle_cons hp hh] at h
      exact idleEvent_keeps_parameters (s := { s with host := later }) h

/-! ### Inputs beyond a limit that is given -/

/-- A length beyond a limit that is given is not within it. -/
theorem withinLimit_over {limit : Option Nat} {m n : Nat} (hl : limit = some m) (h : m < n) :
    withinLimit limit n = false := by
  rw [hl]
  exact decide_eq_false (Nat.not_le.mpr h)

theorem requestFits_over {l : LengthLimits} {r : Request} {m : Nat} (ho : r.op = .encode) (hl : l.maxPayload = some m)
    (h : m < r.tpdu.payload.length) : requestFits l r = false := by
  rw [requestFits, ho]
  exact withinLimit_over hl h

/-- A DECODE in progress is beyond `MAX_FRAME` when what its source delivers to it is, a taken header counted. -/
theorem frameFits_over {s : State} {m : Nat} (ho : s.req.op = .holding .decode) (hl : s.limits.maxFrame = some m)
    (h : m < if s.work.hdr.valid then 1 + (srcBytes s).length else octetsDelivered (srcBytes s)) :
    frameFits s = false := by
  simp only [frameFits, ho, Latch.holding_value]
  exact withinLimit_over hl h

/-- What a source delivers to a DECODE that starts at a header, by the path of that header (R152, R53). -/
theorem octetsDelivered_control {h : Byte} (rest : List Byte) (hk : kindMux (extPt h) = .control) :
    octetsDelivered (h :: rest) = 1 := by simp only [octetsDelivered, hk]

theorem octetsDelivered_data {h : Byte} (rest : List Byte) (hk : kindMux (extPt h) = .data) :
    octetsDelivered (h :: rest) = 1 + rest.length := by simp only [octetsDelivered, hk]

/-- A BUSY block that the host lets run refuses by name what is beyond `MAX_FRAME`. -/
theorem step_frameTooLong {s : State} (hp : s.phase = .busy) (hr : HostLetsRun s) (h : frameFits s = false) :
    step s = .refused .frameTooLong := by
  obtain ⟨later, e⟩ := step_busy_letsRun hp hr
  rw [e]
  exact runWithinLimit_over (s := { s with host := later }) h

/-- An IDLE block refuses by name a request beyond `MAX_PAYLOAD`. -/
theorem step_payloadTooLong {s : State} {r : Request} {later : List HostEvent} (hp : s.phase = .idle)
    (hh : s.host = .request r :: later) (h : requestFits s.limits r = false) : step s = .refused .payloadTooLong := by
  rw [step_idle_cons hp hh]
  exact presentRequest_over (s := { s with host := later }) h

/-- Settles O56, by the two checks and the octets that each header lets a source deliver. -/
theorem inputsBeyondTheLimitsAreRefused : Obligations.InputsBeyondTheLimitsAreRefused := by
  unfold Obligations.InputsBeyondTheLimitsAreRefused
  refine ⟨fun s r later m hp hh ho hl h => step_payloadTooLong hp hh (requestFits_over ho hl h),
    fun s m hp ho hr hl => ⟨fun hv h => ?_, fun h rest ⟨hv, hb⟩ => ⟨fun hk hm => ?_, fun hk hm => ?_⟩⟩⟩ <;>
    refine step_frameTooLong hp hr (frameFits_over ho hl ?_)
  · rwa [if_pos hv]
  · rwa [if_neg (Bool.eq_false_iff.mp hv), hb, octetsDelivered_control rest hk]
  · rwa [if_neg (Bool.eq_false_iff.mp hv), hb, octetsDelivered_data rest hk]

end Sys2Proof.Machine
end

section
/-! PROOFS of 10_state.md: the state after reset (R37), the acceptance of a request and what it forgets (R24, R25, R34), the reads of
the result registers (R33, R37), and the invariant that reset has and every step keeps. -/

namespace Sys2Proof.Machine

/-! ### The invariant in IDLE: the clauses that are left there -/

/-- The clauses of the invariant that hold in either phase and are about no working latch and no result: the port widths,
`SRC_POS`, and the length of the latched payload. -/
structure StandingInv (s : State) : Prop where
  portWidths : s.req.seq.value.width = s.ports.seqW ∧ s.req.ctl.value.width = s.ports.ctlW
  posInSource : s.src.pos ≤ s.src.octets.length
  payloadInLimit : s.req.op = .holding .encode → withinLimit s.limits.maxPayload s.req.payload.value.length

/-- They look at the parameters, the request and the source only. -/
theorem StandingInv.congr {s t : State} (h : StandingInv s) (hports : t.ports = s.ports) (hlimits : t.limits = s.limits)
    (hreq : t.req = s.req) (hsrc : t.src = s.src) : StandingInv t := by
  constructor
  · rw [hreq, hports]; exact h.portWidths
  · rw [hsrc]; exact h.posInSource
  · rw [hreq, hlimits]; exact h.payloadInLimit

theorem MachineInv.standing {s : State} (h : MachineInv s) : StandingInv s :=
  ⟨h.portWidths, h.posInSource, h.payloadInLimit⟩

/-- The clauses about the result registers (R33, R42, R200). -/
structure ResultInv (s : State) : Prop where
  recordAfterDecodeOk : s.res.recordSomewhere →
    s.res.recordComplete ∧ s.res.status = .holding Status.ok.code ∧ s.req.op = .holding .decode
  recordShape : s.res.recordSomewhere → s.res.recordShape
  statusWithCount : s.res.status.valid → s.res.consumed.valid

/-- In IDLE the invariant is those clauses, and that `CBUF` and `OBUF` hold no value (R69). -/
theorem MachineInv.ofIdle {s : State} (hp : s.phase = .idle) (hs : StandingInv s) (hr : ResultInv s)
    (hb : s.work.cbuf.valid = false ∧ s.work.obuf.valid = false) : MachineInv s where
  recordAfterDecodeOk := hr.recordAfterDecodeOk
  recordShape := hr.recordShape
  statusWithCount := hr.statusWithCount
  portWidths := hs.portWidths
  posInSource := hs.posInSource
  payloadInLimit := hs.payloadInLimit
  idleBuffersVoid := fun _ => hb
  busyRequest := by simp [hp]
  busyNoResult := by simp [hp]
  busyCount := by simp [hp]
  startBehindPos := by simp [hp]
  headerAhead := by simp [hp]
  headerTaken := by simp [hp]
  obufInLimit := by simp [hb.2]

/-! ### Reset -/

/-- A block that has just been reset has the invariant, on any source whose position is inside it (R230). -/
theorem resetBlock_inv {s : State} (h : s.src.pos ≤ s.src.octets.length) : MachineInv (resetBlock s) :=
  .ofIdle rfl ⟨⟨rfl, rfl⟩, h, by simp [ReqRegs.void]⟩ ⟨by simp, by simp, by simp⟩ ⟨rfl, rfl⟩

/-- The state after reset is one that a further reset does not change. -/
theorem resetBlock_resetWith (p : PortWidths) (l : LengthLimits) :
    resetBlock (State.resetWith p l) = State.resetWith p l := rfl

theorem resetWith_inv (p : PortWidths) (l : LengthLimits) : MachineInv (State.resetWith p l) := by
  rw [← resetBlock_resetWith]
  exact resetBlock_inv (Nat.le_refl 0)

/-- Settles O42: the state after reset is that of a block just reset, at position 0 of its source. -/
theorem resetMeetsInvariant : Obligations.ResetMeetsInvariant := by
  unfold Obligations.ResetMeetsInvariant
  exact ⟨resetWith_inv _ _, resetWith_inv⟩

/-- The position drawn for an abandoned operation is inside the source (R231, D8). -/
theorem abandonOperation_inv {s : State} (hi : MachineInv s) (hb : s.phase = .busy) :
    MachineInv (abandonOperation s) := by
  refine resetBlock_inv ?_
  change s.opStart + drawUpTo (s.src.octets.length - s.opStart) s ≤ s.src.octets.length
  have hdraw := drawUpTo_le (s.src.octets.length - s.opStart) s
  have hstart := hi.startBehindPos hb
  have hpos := hi.posInSource
  omega

/-! ### The other agents' actions -/

/-- The invariant does not look at the sink. -/
theorem MachineInv.withSink {s : State} (h : MachineInv s) (k : Sink) : MachineInv { s with snk := k } := { h with }

/-- In IDLE it looks at the position in the source only. -/
theorem MachineInv.withSource {s : State} (h : MachineInv s) (hp : s.phase = .idle) {src : Source}
    (hpos : src.pos ≤ src.octets.length) : MachineInv { s with src := src } :=
  .ofIdle hp ⟨h.portWidths, hpos, h.payloadInLimit⟩ ⟨h.recordAfterDecodeOk, h.recordShape, h.statusWithCount⟩
    (h.idleBuffersVoid hp)

/-- A drain takes only octets that are there, and the position of an ENCODE's source is its start or beyond. -/
theorem takeFromSource_inv {s : State} (hi : MachineInv s) (n : Nat)
    (ho : s.phase = .busy → s.req.op.value = .encode) : MachineInv (takeFromSource n s) :=
  { hi with
    posInSource := by
      have hpos := hi.posInSource
      simp [srcBytes]
      omega
    startBehindPos := fun hb => Nat.le_add_right_of_le (hi.startBehindPos hb)
    headerAhead := fun hb hd => by simp [ho hb] at hd
    headerTaken := fun hb hd => by simp [ho hb] at hd }

/-- Only an ENCODE lets another agent take from the source (R70). -/
theorem busyTakeFromSource_encode {n : Nat} {s t : State} (h : busyTakeFromSource n s = .next t) :
    s.req.op.value = .encode := by
  obtain ⟨-, h⟩ := readReg_next h
  split at h
  · cases h
  · assumption

/-! ### The end of an operation -/

/-- An ending without a record keeps the invariant (R33, R208). -/
theorem endOperation_noRecord_inv {s : State} (h : StandingInv s) {st : Status} {n : Nat} :
    MachineInv (endOperation (.noRecord st n) s) :=
  .ofIdle rfl (h.congr rfl rfl rfl rfl) ⟨by simp, by simp, by simp⟩ ⟨rfl, rfl⟩

/-- So does a DECODE's `OK`, if the record has the shape of R42. -/
theorem endOperation_decoded_inv {s : State} (h : StandingInv s) (ho : s.req.op = .holding .decode) {k : BitVec 2}
    {q : BitVec 4} {c : BitVec 2} {sc : BitVec 4} {p : List Byte} {n : Nat}
    (hshape : (ResRegs.decoded k q c sc p n).recordShape) : MachineInv (endOperation (.decoded k q c sc p n) s) :=
  .ofIdle rfl (h.congr rfl rfl rfl rfl)
    ⟨fun _ => ⟨⟨rfl, rfl, rfl, rfl, rfl⟩, rfl, ho⟩, fun _ => hshape, fun _ => rfl⟩ ⟨rfl, rfl⟩

theorem isControlKind_of_control {k : BitVec 2} (h : kindMux k = .control) : isControlKind k = true := by
  revert k; decide

theorem isControlKind_of_data {k : BitVec 2} (h : kindMux k = .data) : isControlKind k = false := by
  revert k; decide

/-- A control record without service code and payload has the shape of R42. -/
theorem decoded_shape_control {k : BitVec 2} (hk : kindMux k = .control) (q : BitVec 4) (c : BitVec 2) (n : Nat) :
    (ResRegs.decoded k q c 0 [] n).recordShape :=
  ⟨fun _ => ⟨rfl, rfl⟩, fun hd => by simp [ResRegs.decoded, isControlKind_of_control hk] at hd⟩

/-- A data record without control value and with a payload has the shape of R42. -/
theorem decoded_shape_data {k : BitVec 2} (hk : kindMux k = .data) (q sc : BitVec 4) (b : Byte) (rest : List Byte)
    (n : Nat) : (ResRegs.decoded k q 0 sc (b :: rest) n).recordShape :=
  ⟨fun hc => by simp [ResRegs.decoded, isControlKind_of_data hk] at hc, fun _ => ⟨rfl, List.cons_ne_nil _ _⟩⟩

/-! ### The run of a DECODE -/

/-- The position moves on by octets that the source holds. -/
theorem StandingInv.advanceSrc {s : State} (h : StandingInv s) {n : Nat} (hn : s.src.pos + n ≤ s.src.octets.length) :
    StandingInv (advanceSrc n s) := ⟨h.portWidths, hn, h.payloadInLimit⟩

/-- Taking a header that is there keeps the standing clauses. -/
theorem StandingInv.afterHeader {s : State} (h : StandingInv s) {b : Byte} {rest : List Byte}
    (hs : srcBytes s = b :: rest) : StandingInv (afterHeader b s) :=
  ⟨h.portWidths, by have := pos_lt_of_srcBytes hs; simp; omega, h.payloadInLimit⟩

/-- Taking it and up to all the octets behind it does too. -/
theorem StandingInv.afterHeader_advanceSrc {s : State} (h : StandingInv s) {b : Byte} {rest : List Byte}
    (hs : srcBytes s = b :: rest) {n : Nat} (hn : n ≤ rest.length) :
    StandingInv (Machine.advanceSrc n (Machine.afterHeader b s)) :=
  (h.afterHeader hs).advanceSrc (by have := pos_lt_of_srcBytes hs; simp; omega)

/-- A DECODE that has taken a data header from a source that never ends keeps the invariant: it is one octet past its start,
with that octet in `HDR` (R60, R237). -/
theorem afterHeader_inv {s : State} (hi : MachineInv s) (hb : s.phase = .busy) (ho : s.req.op = .holding .decode)
    (hv : s.work.hdr.valid = false) {h : Byte} {rest : List Byte} (hs : srcBytes s = h :: rest)
    (hk : kindMux (extPt h) = .data) (ht : s.src.term = .stall) : MachineInv (afterHeader h s) :=
  have hstart : s.src.pos = s.opStart := hi.headerAhead hb (by simp [ho]) hv
  { hi with
    posInSource := (hi.standing.afterHeader hs).posInSource
    startBehindPos := fun _ => Nat.le_add_right_of_le (hi.startBehindPos hb)
    headerAhead := fun _ _ hf => by simp at hf
    headerTaken := fun _ _ _ => ⟨by simp [hstart], by simpa [hstart] using getElem?_pos_of_srcBytes hs, hk, ht⟩ }

/-- Every way a DECODE that starts can go on keeps the invariant. -/
theorem DecodeEnding.inv {s t : State} (hi : MachineInv s) (hb : s.phase = .busy) (ho : s.req.op = .holding .decode)
    (hv : s.work.hdr.valid = false) (h : DecodeEnding s t) : MachineInv t := by
  have hs := hi.standing
  cases h with
  | truncated => exact endOperation_noRecord_inv hs
  | headerFailed => exact endOperation_noRecord_inv hs
  | headerStalled => exact hi
  | control h rest hsrc hk => exact endOperation_decoded_inv (hs.afterHeader hsrc) ho (decoded_shape_control hk _ _ _)
  | restStalled h rest hsrc hk ht => exact afterHeader_inv hi hb ho hv hsrc hk ht
  | restFailed h rest n hsrc hk ht hn =>
    refine endOperation_noRecord_inv ?_
    exact (hs.afterHeader_advanceSrc hsrc hn).congr rfl rfl rfl rfl
  | nocont h hsrc => exact endOperation_noRecord_inv (hs.afterHeader hsrc)
  | short h c hsrc hk =>
    exact endOperation_decoded_inv (hs.afterHeader_advanceSrc hsrc (by simp)) ho (decoded_shape_data hk _ _ _ _ _)
  | long h c p rest hsrc hk =>
    exact endOperation_decoded_inv (hs.afterHeader_advanceSrc hsrc (by simp)) ho (decoded_shape_data hk _ _ _ _ _)

/-! ### The run of an ENCODE -/

/-- The frame of a record has 1 or 2 octets, or one more than its payload (R181). -/
theorem frameOf_length (t : Tpdu) : (frameOf t).length ≤ 2 ∨ (frameOf t).length = 1 + t.payload.length := by
  unfold frameOf
  split
  · exact .inl (by simp)
  · split
    · exact .inl (by simp)
    · next hp => exact .inr (by simp [hp]; omega)

/-- An ENCODE that hangs at its sink keeps the invariant: its frame is in `OBUF`, and 0 in `RES_CONSUMED` (R170, R237). -/
theorem hungEncode_inv {s : State} (hi : MachineInv s) (hb : s.phase = .busy) (ho : s.req.op = .holding .encode) {b : Byte}
    {f : List Byte} (hf : frameOf (latchedTpdu s) = b :: f) :
    MachineInv (writeConsumed 0 (writeObuf (b :: f) (writeHdr b s))) :=
  have hlen := frameOf_length (latchedTpdu s)
  { hi with
    busyCount := fun _ _ => ⟨by simp [ho], rfl, rfl⟩
    statusWithCount := fun _ => rfl
    idleBuffersVoid := fun hp => by simp [hb] at hp
    headerAhead := fun _ hd => by simp [ho] at hd
    headerTaken := fun _ hd => by simp [ho] at hd
    obufInLimit := fun _ => ⟨List.cons_ne_nil _ _, by
      rw [hf] at hlen
      refine hlen.imp id fun h => withinLimit_mono (hi.payloadInLimit ho) ?_
      simp [latchedTpdu] at h ⊢
      omega⟩ }

/-- Whatever the sink answers, an ENCODE keeps the invariant. -/
theorem EncodeEnding.inv {s t : State} (hi : MachineInv s) (hb : s.phase = .busy) (ho : s.req.op = .holding .encode) {b : Byte}
    {f : List Byte} (hf : frameOf (latchedTpdu s) = b :: f) (h : EncodeEnding b f s t) : MachineInv t := by
  obtain ⟨-, rfl⟩ | ⟨-, rfl⟩ | ⟨-, rfl⟩ := h
  · refine endOperation_noRecord_inv ?_
    exact hi.standing.congr rfl rfl rfl rfl
  · refine endOperation_noRecord_inv ?_
    exact hi.standing.congr rfl rfl rfl rfl
  · exact hungEncode_inv hi hb ho hf

/-! ### The step -/

/-- The run of the operation in progress keeps the invariant. -/
theorem runOperation_inv {s t : State} (hi : MachineInv s) (hb : s.phase = .busy) (h : runOperation s = .next t) :
    MachineInv t := by
  have hl := hi.busyRequest hb
  obtain ho | ho := op_cases hl
  · cases hv : s.work.hdr.valid with
    | false => exact (runOperation_decode_next ho hv h).inv hi hb ho hv
    | true =>
      obtain ⟨-, -, hk, ht⟩ := hi.headerTaken hb (by simp [ho]) hv
      rw [runOperation_taken_stall ho hv hk ht] at h
      cases h
      exact hi
  · obtain ⟨b, f, hf, hend⟩ := runOperation_encode_next hl ho h
    exact hend.inv hi hb ho hf

/-- So does every step in BUSY. -/
theorem busyStep_inv {s t : State} (hi : MachineInv s) (hb : s.phase = .busy) (h : busyStep s = .next t) :
    MachineInv t := by
  obtain ⟨later, e⟩ | ⟨later, -, e⟩ | ⟨r, later, -, e⟩ | ⟨n, later, -, e⟩ | ⟨b, later, -, e⟩ := busyStep_cases s <;>
    rw [e] at h
  · exact runOperation_inv (hi.withHost later) hb (runWithinLimit_next h).2
  · cases h
    exact abandonOperation_inv (hi.withHost later) hb
  · obtain rfl := readResult_next h
    exact hi.withHost later
  · have ho := busyTakeFromSource_encode h
    obtain rfl := busyTakeFromSource_next h
    exact takeFromSource_inv (hi.withHost later) n fun _ => ho
  · obtain rfl := busyWriteToSink_next h
    exact (hi.withHost later).withSink _

/-- So does every action of the host in IDLE. -/
theorem idleEvent_inv {e : HostEvent} {s t : State} (hi : MachineInv s) (hp : s.phase = .idle)
    (h : idleEvent e s = .next t) : MachineInv t := by
  cases e with
  | request r =>
    obtain ⟨hr, rfl⟩ := presentRequest_next h
    exact acceptRequest_inv hi.posInSource hr
  | readResult r =>
    obtain rfl := readResult_next h
    exact hi
  | quiet => cases h; exact hi
  | attachSource octets term => cases h; exact hi.withSource hp (Nat.zero_le _)
  | attachSink content answer => cases h; exact hi.withSink _
  | sinkWillAnswer answer => cases h; exact hi.withSink _
  | takeFromSource n => cases h; exact takeFromSource_inv hi n (by simp [hp])
  | writeToSink bytes => cases h; exact hi.withSink _
  | reset => cases h; exact resetBlock_inv hi.posInSource

/-- Settles O43, by the phase: in IDLE by the host's action, in BUSY by the cases of the step and the endings of the run. -/
theorem stepKeepsInvariant : Obligations.StepKeepsInvariant := by
  unfold Obligations.StepKeepsInvariant
  intro s t hi h
  cases hp : s.phase with
  | busy =>
    rw [step_busy hp] at h
    exact busyStep_inv hi hp h
  | idle =>
    cases hh : s.host with
    | nil =>
      rw [step_idle_nil hp hh] at h
      cases h
      exact hi
    | cons e later =>
      rw [step_idle_cons hp hh] at h
      exact idleEvent_inv (hi.withHost later) hp h

/-! ### Requests -/

/-- A request is within `MAX_PAYLOAD` exactly when its payload is, or it is a DECODE (R6, R25). -/
theorem requestFits_eq_true {l : LengthLimits} {r : Request} :
    requestFits l r = true ↔ (r.op = .encode → withinLimit l.maxPayload r.tpdu.payload.length = true) := by
  unfold requestFits; cases r.op <;> simp

/-- An IDLE block accepts a request within `MAX_PAYLOAD` (R24). -/
theorem step_accepts {s : State} {r : Request} {later : List HostEvent} (hp : s.phase = .idle)
    (hh : s.host = .request r :: later) (hr : requestFits s.limits r = true) :
    step s = .next (acceptRequest r { s with host := later }) := by
  rw [step_idle_cons hp hh]
  exact presentRequest_fits (s := { s with host := later }) hr

/-- Settles O17: the state it gives is the acceptance's, written out. -/
theorem idleBlockAcceptsRequest : Obligations.IdleBlockAcceptsRequest := by
  unfold Obligations.IdleBlockAcceptsRequest
  intro s r later hp hh hr
  exact step_accepts hp hh (requestFits_eq_true.mpr hr)

/-- A request presented to a BUSY block lets the operation run, and stays where it is (R24, R214). -/
theorem step_busy_request {s : State} {r : Request} {later : List HostEvent} (hp : s.phase = .busy)
    (hh : s.host = .request r :: later) : step s = runWithinLimit s := by
  simp [step_busy hp, busyStep, hh]

/-- Settles O19: the run it lets happen changes neither the host's actions nor the request registers. -/
theorem busyBlockLeavesRequestWaiting : Obligations.BusyBlockLeavesRequestWaiting := by
  unfold Obligations.BusyBlockLeavesRequestWaiting
  intro s t r later hp hh h
  rw [step_busy_request hp hh] at h
  obtain ⟨-, h⟩ := runWithinLimit_next h
  obtain ⟨hhost, hreq, -, -, -⟩ := runOperation_keeps_request h
  exact ⟨hhost.trans hh, hreq⟩

/-! ### What an operation does not depend on -/

/-- The acceptance of a request overwrites all that an earlier operation can have left: `PHASE`, the request, the working latches,
the results and the note of the start (R34). -/
theorem acceptRequest_forgets (r : Request) {s t : State} (hports : s.ports = t.ports) (hlimits : s.limits = t.limits)
    (hsrc : s.src = t.src) (hsnk : s.snk = t.snk) (hdraws : s.draws = t.draws) (hhost : s.host = t.host) :
    acceptRequest r s = acceptRequest r t := by
  simp only [acceptRequest, hports, hlimits, hsrc, hsnk, hdraws, hhost]

/-- So a request leads two such IDLE blocks to the same state, or is refused by both. -/
theorem step_request_forgets {s t : State} {r : Request} {later : List HostEvent} (hps : s.phase = .idle)
    (hpt : t.phase = .idle) (hports : s.ports = t.ports) (hlimits : s.limits = t.limits) (hsrc : s.src = t.src)
    (hsnk : s.snk = t.snk) (hdraws : s.draws = t.draws) (hhs : s.host = .request r :: later)
    (hht : t.host = .request r :: later) : step s = step t := by
  cases hr : requestFits s.limits r with
  | true =>
    rw [step_accepts hps hhs hr, step_accepts hpt hht (hlimits ▸ hr)]
    exact congrArg _ (acceptRequest_forgets r hports hlimits hsrc hsnk hdraws rfl)
  | false => rw [step_payloadTooLong hps hhs hr, step_payloadTooLong hpt hht (hlimits ▸ hr)]

/-- What follows the first step depends on that step's answer alone. -/
theorem runSteps_succ_congr {s t : State} (h : step s = step t) (n : Nat) : runSteps (n + 1) s = runSteps (n + 1) t := by
  simp only [runSteps, h]

/-- No result register holds a value (R33). -/
@[simp] theorem void_holds (reg : ResultReg) : ResRegs.void.holds reg = false := by cases reg <;> rfl

/-- Settles O20: the first step accepts the request, which forgets, or refuses it. -/
theorem operationsForgetEarlierOperations : Obligations.OperationsForgetEarlierOperations := by
  unfold Obligations.OperationsForgetEarlierOperations
  intro s t r later hps hpt hports hlimits hsrc hsnk hdraws hhs hht
  exact ⟨runSteps_succ_congr (step_request_forgets hps hpt hports hlimits hsrc hsnk hdraws hhs hht),
    fun hr => ⟨_, step_accepts hps hhs hr, rfl, rfl, rfl, void_holds⟩⟩

/-! ### Reads of the result registers -/

theorem Phase.idle_or_busy (p : Phase) : p = .idle ∨ p = .busy := by cases p <;> simp

/-- A host's read of a result register is a step of its own, in IDLE and in BUSY (log entry 13). -/
theorem step_readResult {s : State} {r : ResultReg} {later : List HostEvent} (hh : s.host = .readResult r :: later) :
    step s = readResult r { s with host := later } := by
  obtain hp | hp := s.phase.idle_or_busy
  · exact step_idle_cons hp hh
  · simp [step_busy hp, busyStep, hh]

/-- It faults when the host cannot read the register. -/
theorem step_readResult_unreadable {s : State} {r : ResultReg} {later : List HostEvent}
    (hh : s.host = .readResult r :: later) (hr : readable r s = false) : step s = .fault (.noValue (.result r)) := by
  rw [step_readResult hh]
  exact readResult_unreadable (s := { s with host := later }) hr

/-- A register without a value cannot be read, whatever the phase. -/
theorem readable_eq_false_of_holds {r : ResultReg} {s : State} (h : s.res.holds r = false) : readable r s = false := by
  unfold readable; cases s.phase <;> simp [h]

/-- Settles O21, by whether the host can read the register. -/
theorem resultReadFaultsWithoutValue : Obligations.ResultReadFaultsWithoutValue := by
  unfold Obligations.ResultReadFaultsWithoutValue
  intro s r later hh
  refine ⟨fun hp hv => ?_, fun hv => step_readResult_unreadable hh (readable_eq_false_of_holds hv),
    fun hp => step_readResult_unreadable hh (readable_busy hp)⟩
  rw [step_readResult hh]
  exact readResult_readable (readable_eq_true.mpr ⟨hp, hv⟩)

/-- A read of any result register right after reset faults (R37). -/
theorem resetWith_read_faults (p : PortWidths) (l : LengthLimits) (r : ResultReg) :
    step { State.resetWith p l with host := [.readResult r] } = .fault (.noValue (.result r)) :=
  step_readResult_unreadable rfl (readable_eq_false_of_holds (void_holds r))

/-- Settles O14: every register is void by definition, so a read of a result faults; the default ports are 8 bits wide (R6). -/
theorem resetLeavesOnlyPhase : Obligations.ResetLeavesOnlyPhase := by
  unfold Obligations.ResetLeavesOnlyPhase
  refine ⟨fun p l => ⟨rfl, rfl, rfl, ⟨rfl, rfl, rfl, rfl, rfl, rfl⟩, ⟨rfl, rfl, rfl⟩, resetWith_read_faults p l⟩, ?_⟩
  exact ⟨Config.defaultPorts, rfl, rfl, rfl⟩

end Sys2Proof.Machine
end

section
/-! PROOFS of 20_memory.md: what no DECODE form and no ENCODE form changes (R50, R59), that a sink gets a frame whole or not at all
(R54), and another agent's access to a stream while the block is BUSY (R70). -/

namespace Sys2Proof.Machine

/-! ### The DECODE forms -/

theorem decodeControl_frame {s t : State} {k : BitVec 2} {q : BitVec 4} {c : BitVec 2}
    (h : decodeControl k q c s = .next t) : DecodeFrame s t :=
  takeHeader_frame (fun _ _ h1 => ending_frame h1) h

theorem decodeNocont_frame {s t : State} (h : decodeNocont s = .next t) : DecodeFrame s t :=
  takeHeader_frame (fun _ _ h1 => takeRest_frame (fun _ _ h2 => ending_frame h2) h1) h

theorem decodeShort_frame {s t : State} {k : BitVec 2} {q : BitVec 4} {hi : BitVec 2}
    (h : decodeShort k q hi s = .next t) : DecodeFrame s t :=
  dataForm_frame (fun _ _ _ _ h1 => ending_frame h1) h

theorem decodeLong_frame {s t : State} {k : BitVec 2} {q : BitVec 4} {hi : BitVec 2}
    (h : decodeLong k q hi s = .next t) : DecodeFrame s t :=
  dataForm_frame (fun _ _ _ _ h1 => ending_frame h1) h

/-- A header octet faults this form, so there is nothing to keep after one. -/
theorem execDecodeNohdr_frame {s t : State} (h : execDecodeNohdr s = .next t) : DecodeFrame s t :=
  takeHeader_frame (k := fun _ _ => .fault .headerPresent) (fun _ _ h1 => by cases h1) h

/-- Every DECODE form keeps the frame. -/
theorem exec_decode_frame (s t : State) (q : BitVec 4) (l : BitVec 2) :
    ∀ i ∈ [Instr.decodeNohdr, .decodeUcd q l, .decodeNcd q l, .decodeUdpNocont q l, .decodeUdpShort q l,
           .decodeUdpLong q l, .decodeNdpNocont q l, .decodeNdpShort q l, .decodeNdpLong q l],
      exec i s = .next t → DecodeFrame s t := by
  simp only [List.forall_mem_cons]
  exact ⟨execDecodeNohdr_frame, decodeControl_frame, decodeControl_frame, decodeNocont_frame, decodeShort_frame,
    decodeLong_frame, decodeNocont_frame, decodeShort_frame, decodeLong_frame, by simp⟩

/-- Settles O29: the frame of the DECODE forms, field by field. -/
theorem decodeFormsFrame : Obligations.DecodeFormsFrame := by
  unfold Obligations.DecodeFormsFrame
  intro s t q l i hi h
  have f := exec_decode_frame s t q l i hi h
  exact ⟨f.req, f.obuf, f.snk, f.octets, f.term, f.host, f.pos, f.ports, f.limits, f.opStart⟩

/-! ### The ENCODE forms -/

/-- The same block on another sink. -/
def State.withSink (k : Sink) (s : State) : State := { s with snk := k }

/-- Whatever the sink, `f` makes one sink write of `frame` on `s`, with `b` in `HDR`: the frame does not depend on the sink (R170). -/
def SendsFrame (f : State → Result) (s : State) (b : Byte) (frame : List Byte) : Prop :=
  ∀ k : Sink, f (s.withSink k) = sendFrame (writeObuf frame (writeHdr b (s.withSink k)))

theorem encodeControl_sendsFrame {s t : State} {k : BitVec 2} (h : encodeControl k s = .next t) :
    ∃ b frame, SendsFrame (encodeControl k) s b frame := by
  obtain ⟨hq, h⟩ := readReg_next h
  obtain ⟨hc, -⟩ := readReg_next h
  exact ⟨_, _, fun snk => encodeControl_latched (s := s.withSink snk) k (Latch.eq_holding hq) (Latch.eq_holding hc)⟩

theorem encodeEmpty_sendsFrame {s t : State} {k : BitVec 2} (h : encodeEmpty k s = .next t) :
    ∃ b frame, SendsFrame (encodeEmpty k) s b frame := by
  obtain ⟨hq, h⟩ := readReg_next h
  obtain ⟨hc, -⟩ := readReg_next h
  exact ⟨_, _, fun snk => encodeEmpty_latched (s := s.withSink snk) k (Latch.eq_holding hq) (Latch.eq_holding hc)⟩

/-- The form for a payload answers a next state only if there is one: it reads `OBUF.at(1)`. -/
theorem encodeCopy_sendsFrame {s t : State} {k : BitVec 2} (h : encodeCopy k s = .next t) :
    ∃ b frame, SendsFrame (encodeCopy k) s b frame := by
  obtain ⟨hq, h⟩ := readReg_next h
  obtain ⟨hc, h⟩ := readReg_next h
  obtain ⟨hp, h⟩ := readReg_next h
  obtain ⟨c, -, hat, -⟩ := memRead_next h
  have hp := Latch.eq_holding hp
  cases hpay : s.req.payload.value with
  | nil => simp [bufferReg, hpay] at hat
  | cons p rest =>
    rw [hpay] at hp
    exact ⟨_, _, fun snk => encodeCopy_latched (s := s.withSink snk) k (Latch.eq_holding hq) (Latch.eq_holding hc) hp⟩

/-- Every ENCODE form that leads to a next state makes one sink write, of the same frame for every sink. -/
theorem exec_encode_sendsFrame (s t : State) :
    ∀ i ∈ [Instr.encodeUcd, .encodeNcd, .encodeUdpEmpty, .encodeUdpPayload, .encodeNdpEmpty, .encodeNdpPayload],
      exec i s = .next t → ∃ b frame, SendsFrame (exec i) s b frame := by
  simp only [List.forall_mem_cons]
  exact ⟨encodeControl_sendsFrame, encodeControl_sendsFrame, encodeEmpty_sendsFrame, encodeCopy_sendsFrame,
    encodeEmpty_sendsFrame, encodeCopy_sendsFrame, by simp⟩

/-- A sink write leaves `CBUF` as it was, unless the operation ended, which leaves it without a value (R69). -/
theorem sendFrame_cbuf {frame : List Byte} {s t : State} (h : sendFrame (writeObuf frame s) = .next t) :
    t.work.cbuf = s.work.cbuf ∨ (t.phase = .idle ∧ t.work.cbuf = .void) := by
  obtain ⟨t', e, ⟨-, rfl⟩ | ⟨-, rfl⟩ | ⟨-, rfl⟩⟩ := sendFrame_cases frame s <;> (rw [h] at e; cases e)
  · exact .inr ⟨rfl, rfl⟩
  · exact .inr ⟨rfl, rfl⟩
  · exact .inl rfl

/-- The sink gets the frame whole or not at all, and the result registers say which (R54, R170, R179, R237). -/
theorem sendFrame_wholeOrNone {frame : List Byte} {s t : State} (h : sendFrame (writeObuf frame s) = .next t) :
    (s.snk.answer = .ok ∧ t.snk.content = s.snk.content ++ frame ∧ t.res.status = .holding 0) ∨
    (s.snk.answer = .fail ∧ t.snk.content = s.snk.content ∧ t.res.status = .holding 3) ∨
    (s.snk.answer = .stall ∧ t.snk.content = s.snk.content ∧ t.res = { s.res with consumed := .holding 0 }) := by
  obtain ⟨t', e, ⟨ha, rfl⟩ | ⟨ha, rfl⟩ | ⟨ha, rfl⟩⟩ := sendFrame_cases frame s <;> (rw [h] at e; cases e)
  · exact .inl ⟨ha, rfl, rfl⟩
  · exact .inr (.inl ⟨ha, rfl, rfl⟩)
  · exact .inr (.inr ⟨ha, rfl, rfl⟩)

/-- Settles O35: the form is one sink write, of a frame that the same form leaves in `OBUF` on a sink that never answers. -/
theorem encodeFormsFrame : Obligations.EncodeFormsFrame := by
  unfold Obligations.EncodeFormsFrame
  intro s t i hi h
  obtain ⟨b, frame, hsends⟩ := exec_encode_sendsFrame s t i hi h
  have hrun : sendFrame (writeObuf frame (writeHdr b s)) = .next t := (hsends s.snk).symm.trans h
  have hstalled := (hsends { s.snk with answer := .stall }).trans (sendFrame_stall frame rfl)
  obtain ⟨hports, hlimits, hstart, hreq, hsrc, hdraws, hhost, -, hanswer⟩ := sendFrame_frame hrun
  have hcbuf := sendFrame_cbuf hrun
  have hsink := sendFrame_wholeOrNone hrun
  exact ⟨hreq, hcbuf, hsrc, hdraws, hhost, hports, hlimits, hstart, hanswer,
    _, hstalled, rfl, hsink⟩

/-! ### Another agent's access to a stream, in BUSY -/

theorem step_busy_takeFromSource {s : State} {n : Nat} {later : List HostEvent} (hp : s.phase = .busy)
    (hh : s.host = .takeFromSource n :: later) : step s = busyTakeFromSource n { s with host := later } := by
  simp [step_busy hp, busyStep, hh]

theorem step_busy_writeToSink {s : State} {bytes : List Byte} {later : List HostEvent} (hp : s.phase = .busy)
    (hh : s.host = .writeToSink bytes :: later) : step s = busyWriteToSink bytes { s with host := later } := by
  simp [step_busy hp, busyStep, hh]

/-- A drain is refused during a DECODE, and takes its octets during an ENCODE. -/
theorem busyTakeFromSource_refused {n : Nat} {s : State} (ho : s.req.op = .holding .decode) :
    busyTakeFromSource n s = .refused .foreignSourceRead := by
  rw [busyTakeFromSource, ho, readReg_holding]

theorem busyTakeFromSource_drains {n : Nat} {s : State} (ho : s.req.op = .holding .encode) :
    busyTakeFromSource n s = .next (takeFromSource n s) := by
  rw [busyTakeFromSource, ho, readReg_holding]

/-- A write appends its bytes during a DECODE, and is refused during an ENCODE. -/
theorem busyWriteToSink_appends {bytes : List Byte} {s : State} (ho : s.req.op = .holding .decode) :
    busyWriteToSink bytes s = .next (writeToSink bytes s) := by
  rw [busyWriteToSink, ho, readReg_holding]

theorem busyWriteToSink_refused {bytes : List Byte} {s : State} (ho : s.req.op = .holding .encode) :
    busyWriteToSink bytes s = .refused .foreignSinkWrite := by
  rw [busyWriteToSink, ho, readReg_holding]

/-- Settles O22, by the operation in the request register. -/
theorem foreignAccessToBusyStreamIsRefused : Obligations.ForeignAccessToBusyStreamIsRefused := by
  unfold Obligations.ForeignAccessToBusyStreamIsRefused
  refine ⟨fun s n later hp ho hh => ?_, fun s bytes later hp ho hh => ?_⟩
  · rw [step_busy_takeFromSource hp hh]
    exact busyTakeFromSource_refused (s := { s with host := later }) ho
  · rw [step_busy_writeToSink hp hh]
    exact busyWriteToSink_refused (s := { s with host := later }) ho

/-- Settles O55: the step is the drain, or the write, alone. -/
theorem accessToTheOtherStreamHasItsEffect : Obligations.AccessToTheOtherStreamHasItsEffect := by
  unfold Obligations.AccessToTheOtherStreamHasItsEffect
  refine ⟨fun s n later hp ho hh => ⟨takeFromSource n { s with host := later }, ?_, ?_, rfl⟩,
    fun s bytes later hp ho hh => ?_⟩
  · rw [step_busy_takeFromSource hp hh]
    exact busyTakeFromSource_drains (s := { s with host := later }) ho
  · exact srcBytes_takeFromSource n { s with host := later }
  · rw [step_busy_writeToSink hp hh]
    exact busyWriteToSink_appends (s := { s with host := later }) ho

end Sys2Proof.Machine
end

section
/-! PROOFS of 30_encoding.md: the fields of the dispatch word (R96), the opcode table, its decoder and its encoder (R97), the words
the machine builds and the placing of one, the code tables (R88, R89, R90, R200), and `ENCODE_PADDED` (R99). -/

namespace Sys2Proof.Machine

/-! ### The fields of a header octet and of a dispatch word -/

@[simp] theorem extPt_append (k : BitVec 2) (q : BitVec 4) (l : BitVec 2) : extPt (k ++ q ++ l) = k :=
  calc extPt (k ++ q ++ l) = (k ++ q).extractLsb' 4 2 := BitVec.extractLsb'_append_eq_of_le (by decide)
    _ = k := BitVec.extractLsb'_append_eq_left

@[simp] theorem extSeq_append (k : BitVec 2) (q : BitVec 4) (l : BitVec 2) : extSeq (k ++ q ++ l) = q :=
  calc extSeq (k ++ q ++ l) = (k ++ q).extractLsb' 0 4 := BitVec.extractLsb'_append_eq_of_le (by decide)
    _ = q := BitVec.extractLsb'_append_eq_right

@[simp] theorem extLow2_append (k : BitVec 2) (q : BitVec 4) (l : BitVec 2) : extLow2 (k ++ q ++ l) = l :=
  BitVec.extractLsb'_append_eq_right

/-- Bit 7 of a header octet tells a control kind (R81, R89). -/
theorem isControlKind_extPt (h : Byte) : isControlKind (extPt h) = h.getLsbD 7 := by
  simp [isControlKind, extPt]

section
variable (hp : BitVec 1) (rc : BitVec 2) (op : BitVec 1) (b : Byte)

theorem dispatchWord_hp : (dispatchWord hp rc op b).getLsbD 11 = hp.getLsbD 0 :=
  calc (dispatchWord hp rc op b).getLsbD 11
      = (hp ++ rc ++ op).getLsbD 3 := BitVec.getLsbD_append
    _ = (hp ++ rc).getLsbD 2 := BitVec.getLsbD_append
    _ = hp.getLsbD 0 := BitVec.getLsbD_append

@[simp] theorem dispatchWord_rc : (dispatchWord hp rc op b).extractLsb' 9 2 = rc :=
  calc (dispatchWord hp rc op b).extractLsb' 9 2
      = (hp ++ rc ++ op).extractLsb' 1 2 := BitVec.extractLsb'_append_eq_of_le (by decide)
    _ = (hp ++ rc).extractLsb' 0 2 := BitVec.extractLsb'_append_eq_of_le (by decide)
    _ = rc := BitVec.extractLsb'_append_eq_right

theorem dispatchWord_op : (dispatchWord hp rc op b).getLsbD 8 = op.getLsbD 0 :=
  calc (dispatchWord hp rc op b).getLsbD 8
      = (hp ++ rc ++ op).getLsbD 0 := BitVec.getLsbD_append
    _ = op.getLsbD 0 := BitVec.getLsbD_append

@[simp] theorem dispatchWord_b : (dispatchWord hp rc op b).extractLsb' 0 8 = b :=
  BitVec.extractLsb'_append_eq_right

@[simp] theorem dispatchWord_kind : (dispatchWord hp rc op b).extractLsb' 6 2 = extPt b :=
  BitVec.extractLsb'_append_eq_of_add_le (by decide)

@[simp] theorem dispatchWord_seq : (dispatchWord hp rc op b).seq = extSeq b :=
  BitVec.extractLsb'_append_eq_of_add_le (by decide)

@[simp] theorem dispatchWord_low2 : (dispatchWord hp rc op b).low2 = extLow2 b :=
  BitVec.extractLsb'_append_eq_of_add_le (by decide)

/-- Which words can occur, by their fields (R96). -/
theorem canOccur_dispatchWord : (dispatchWord hp rc op b).canOccur =
    if op.getLsbD 0 then hp.getLsbD 0 && !rc.getLsbD 1
    else if hp.getLsbD 0 then if isControlKind (extPt b) then decide (rc = 0b00#2) else decide (rc ≠ 0b11#2)
    else true := by
  simp only [DWord.canOccur, dispatchWord_hp, dispatchWord_rc, dispatchWord_op, dispatchWord_kind]

end

/-- Words with the same operand bits agree on `D[5:0]`. -/
theorem and_0x03F_eq_of_operands {d e : DWord} (hseq : d.seq = e.seq) (hlow : d.low2 = e.low2) :
    d &&& 0x03F = e &&& 0x03F := by
  have low6 (x : DWord) : x &&& 0x03F = (x.seq ++ x.low2).setWidth 12 := by
    have h : x.seq ++ x.low2 = x.extractLsb' 0 6 := BitVec.extractLsb'_append_extractLsb'_eq_extractLsb' rfl
    rw [h]
    ext i hi
    interval_cases i <;> simp
  rw [low6, low6, hseq, hlow]

/-! ### The rows of the opcode table -/

/-- A word that matches a row has the row's bit wherever the mask looks. -/
theorem getLsbD_of_matches {r : Row} {d : DWord} (h : r.matches d = true) {n : Nat} (hn : r.mask.getLsbD n = true) :
    d.getLsbD n = r.pattern.getLsbD n := by
  rw [← eq_of_beq h, BitVec.getLsbD_and, hn, Bool.and_true]

theorem opcodeRows_nodup : opcodeRows.Nodup := by decide

/-- Two rows that agree where both masks look are the same row: the patterns are disjoint (R96). -/
theorem opcodeRows_disjoint : ∀ r ∈ opcodeRows, ∀ r' ∈ opcodeRows,
    r.pattern &&& r'.mask = r'.pattern &&& r.mask → r = r' := by decide

/-- At most one row matches a word. -/
theorem row_unique {r r' : Row} {d : DWord} (hr : r ∈ opcodeRows) (hr' : r' ∈ opcodeRows) (h : r.matches d = true)
    (h' : r'.matches d = true) : r = r' :=
  opcodeRows_disjoint r hr r' hr' <|
    calc r.pattern &&& r'.mask = d &&& r.mask &&& r'.mask := by rw [eq_of_beq h]
      _ = d &&& r'.mask &&& r.mask := by ac_rfl
      _ = r'.pattern &&& r.mask := by rw [eq_of_beq h']

/-- No row looks at `D[5:0]`. -/
theorem opcodeRows_mask : ∀ r ∈ opcodeRows, 0xFC0 &&& r.mask = r.mask := by decide

theorem matches_and_0xFC0 {r : Row} (hr : r ∈ opcodeRows) (d : DWord) : r.matches (d &&& 0xFC0) = r.matches d := by
  rw [Row.matches, BitVec.and_assoc, opcodeRows_mask r hr, Row.matches]

/-- Nor does R96 when it says which words can occur. -/
theorem canOccur_and_0xFC0 (d : DWord) : (d &&& 0xFC0).canOccur = d.canOccur := by
  have and_three (x : BitVec 2) : x &&& 3#2 = x := BitVec.and_allOnes
  simp [DWord.canOccur, BitVec.extractLsb'_and, and_three]

theorem and_0xFC0_eq_shiftLeft (d : DWord) : d &&& (0xFC0 : DWord) = (d.extractLsb' 6 6).setWidth 12 <<< 6 := by
  ext i hi
  interval_cases i <;> simp

/-- Some row matches a word that can occur, decided over the six bits that both look at. -/
theorem exists_row_of_canOccur {d : DWord} (h : d.canOccur = true) : ∃ r ∈ opcodeRows, r.matches d = true := by
  have upper : ∀ t : BitVec 6, DWord.canOccur (t.setWidth 12 <<< 6) = true →
      ∃ r ∈ opcodeRows, r.matches (t.setWidth 12 <<< 6) = true := by decide
  rw [← canOccur_and_0xFC0, and_0xFC0_eq_shiftLeft] at h
  obtain ⟨r, hr, hm⟩ := upper _ h
  exact ⟨r, hr, by rwa [← matches_and_0xFC0 hr, and_0xFC0_eq_shiftLeft]⟩

/-! ### The decoder finds the row that matches -/

/-- The form of each row, in the table's order, with the operand bits of `d`. -/
def formsAt (d : DWord) : List Instr :=
  [.decodeNohdr, .decodeUcd d.seq d.low2, .decodeNcd d.seq d.low2, .decodeUdpNocont d.seq d.low2,
   .decodeUdpShort d.seq d.low2, .decodeUdpLong d.seq d.low2, .decodeNdpNocont d.seq d.low2,
   .decodeNdpShort d.seq d.low2, .decodeNdpLong d.seq d.low2, .encodeUcd, .encodeNcd, .encodeUdpEmpty,
   .encodeUdpPayload, .encodeNdpEmpty, .encodeNdpPayload]

theorem formsAt_map_row (d : DWord) : (formsAt d).map Instr.row = opcodeRows := rfl

theorem row_mem_of_mem_formsAt {d : DWord} {i : Instr} (hi : i ∈ formsAt d) : i.row ∈ opcodeRows :=
  formsAt_map_row d ▸ List.mem_map_of_mem hi

/-- Of the forms of one word, at most one matches it. -/
theorem form_unique {d : DWord} {i j : Instr} (hi : i ∈ formsAt d) (hj : j ∈ formsAt d) (h : i.row.matches d = true)
    (h' : j.row.matches d = true) : i = j :=
  List.inj_on_of_nodup_map (formsAt_map_row d ▸ opcodeRows_nodup) hi hj
    (row_unique (row_mem_of_mem_formsAt hi) (row_mem_of_mem_formsAt hj) h h')

/-- One link of the decoder's chain is one step of a search. -/
theorem toOption_link {d m p : DWord} {i : Instr} {l : List Instr} {rest : Except NoRow Instr} (hm : i.row.mask = m)
    (hp : i.row.pattern = p) (h : rest.toOption = l.find? (·.row.matches d)) :
    (if d &&& m = p then .ok i else rest).toOption = (i :: l).find? (·.row.matches d) := by
  subst hm hp
  split
  case isTrue hd => rw [List.find?_cons_of_pos (by simpa [Row.matches] using hd)]; rfl
  case isFalse hd => rw [List.find?_cons_of_neg (by simpa [Row.matches] using hd), h]

/-- The decoder searches the table in order (R97). -/
theorem decode_toOption (d : DWord) : (decode d).toOption = (formsAt d).find? (·.row.matches d) := by
  unfold decode formsAt
  iterate 15 refine toOption_link rfl rfl ?_
  split_ifs <;> rfl

theorem toOption_eq_some {x : Except NoRow Instr} {i : Instr} : x.toOption = some i ↔ x = .ok i := by
  cases x <;> simp [Except.toOption]

/-- The decoder gives a form exactly when the form has the word's operand bits and its row matches the word (R96, R97). -/
theorem decode_eq_ok_iff {d : DWord} {i : Instr} : decode d = .ok i ↔ i ∈ formsAt d ∧ i.row.matches d = true := by
  rw [← toOption_eq_some, decode_toOption]
  refine ⟨fun h => ⟨List.mem_of_find?_eq_some h, by simpa using List.find?_some h⟩, fun ⟨hi, hm⟩ => ?_⟩
  have found : ((formsAt d).find? (·.row.matches d)).isSome := List.find?_isSome.mpr ⟨i, hi, hm⟩
  obtain ⟨j, hj⟩ := Option.isSome_iff_exists.mp found
  rw [hj, form_unique hi (List.mem_of_find?_eq_some hj) hm (by simpa using List.find?_some hj)]

/-- The decoder gives a form exactly when some row matches. -/
theorem exists_decode_iff (d : DWord) : (∃ i, decode d = .ok i) ↔ ∃ r ∈ opcodeRows, r.matches d = true := by
  simp [decode_eq_ok_iff, ← formsAt_map_row d]

/-! ### The encoder -/

/-- The word of every form matches the form's row, and can occur. -/
theorem encodesIntoRow (i : Instr) : Laws.EncodesIntoRow.Statement i := by
  cases i with
  | decodeNohdr => exact Laws.EncodesIntoRow.decodeNohdr
  | decodeUcd q c => exact Laws.EncodesIntoRow.decodeUcd q c
  | decodeNcd q c => exact Laws.EncodesIntoRow.decodeNcd q c
  | decodeUdpNocont q c => exact Laws.EncodesIntoRow.decodeUdpNocont q c
  | decodeUdpShort q c => exact Laws.EncodesIntoRow.decodeUdpShort q c
  | decodeUdpLong q c => exact Laws.EncodesIntoRow.decodeUdpLong q c
  | decodeNdpNocont q c => exact Laws.EncodesIntoRow.decodeNdpNocont q c
  | decodeNdpShort q c => exact Laws.EncodesIntoRow.decodeNdpShort q c
  | decodeNdpLong q c => exact Laws.EncodesIntoRow.decodeNdpLong q c
  | encodeUcd => exact Laws.EncodesIntoRow.encodeUcd
  | encodeNcd => exact Laws.EncodesIntoRow.encodeNcd
  | encodeUdpEmpty => exact Laws.EncodesIntoRow.encodeUdpEmpty
  | encodeUdpPayload => exact Laws.EncodesIntoRow.encodeUdpPayload
  | encodeNdpEmpty => exact Laws.EncodesIntoRow.encodeNdpEmpty
  | encodeNdpPayload => exact Laws.EncodesIntoRow.encodeNdpPayload

/-- The word of a form carries the form's own operand bits. -/
theorem mem_formsAt_encode (i : Instr) : i ∈ formsAt (encode i) := by
  cases i with
  | decodeNohdr | encodeUcd | encodeNcd | encodeUdpEmpty | encodeUdpPayload | encodeNdpEmpty | encodeNdpPayload =>
    simp [formsAt]
  | decodeUcd q l | decodeNcd q l | decodeUdpNocont q l | decodeUdpShort q l | decodeUdpLong q l | decodeNdpNocont q l
  | decodeNdpShort q l | decodeNdpLong q l => simp [formsAt, encode]

/-- Decoding the word of a form gives the form back. -/
theorem decode_encode (i : Instr) : decode (encode i) = .ok i :=
  decode_eq_ok_iff.mpr ⟨mem_formsAt_encode i, (encodesIntoRow i).1⟩

/-- A DECODE form with a header that has the operand bits of `d` puts them into its own word. -/
theorem encode_operands_of_mem_formsAt {d : DWord} {i : Instr} (hi : i ∈ formsAt d)
    (hop : i.row.pattern.getLsbD 8 = false) (hhp : i.row.pattern.getLsbD 11 = true) :
    (encode i).seq = d.seq ∧ (encode i).low2 = d.low2 := by
  cases i with
  | decodeUcd q l | decodeNcd q l | decodeUdpNocont q l | decodeUdpShort q l | decodeUdpLong q l | decodeNdpNocont q l
  | decodeNdpShort q l | decodeNdpLong q l => simpa [formsAt, encode] using hi
  | decodeNohdr => simp [Instr.row] at hhp
  | encodeUcd | encodeNcd | encodeUdpEmpty | encodeUdpPayload | encodeNdpEmpty | encodeNdpPayload =>
    simp [Instr.row] at hop

/-- Every row looks at `HP` and at `OP`. -/
theorem opcodeRows_mask_hp_op : ∀ r ∈ opcodeRows, r.mask.getLsbD 11 = true ∧ r.mask.getLsbD 8 = true := by decide

/-! ### The statements about the table -/

/-- Settles O8: the word of a form carries its operands and matches its row, and no other row matches it. -/
theorem decodeOfEncodeIsIdentity : Obligations.DecodeOfEncodeIsIdentity := by
  unfold Obligations.DecodeOfEncodeIsIdentity
  exact decode_encode

/-- Settles O7: the decoder searches the table. -/
theorem decoderAcceptsExactlyTheTable : Obligations.DecoderAcceptsExactlyTheTable := by
  unfold Obligations.DecoderAcceptsExactlyTheTable
  exact exists_decode_iff

/-- Settles O6: some row matches, so the decoder finds one, and the rows are disjoint. -/
theorem exactlyOneRowMatchesEachWord : Obligations.ExactlyOneRowMatchesEachWord := by
  unfold Obligations.ExactlyOneRowMatchesEachWord
  intro d hd
  obtain ⟨i, h⟩ := (exists_decode_iff d).mpr (exists_row_of_canOccur hd)
  obtain ⟨hi, hm⟩ := decode_eq_ok_iff.mp h
  have hrow := row_mem_of_mem_formsAt hi
  exact ⟨i, h, hrow, hm, fun r hr hr' => row_unique hr hrow hr' hm⟩

/-- Settles O9: both words match the form's row, and the form took its operand bits from the word. -/
theorem encodeOfDecodeKeepsEveryMeaningfulBit : Obligations.EncodeOfDecodeKeepsEveryMeaningfulBit := by
  unfold Obligations.EncodeOfDecodeKeepsEveryMeaningfulBit
  intro d i h
  obtain ⟨hi, hm⟩ := decode_eq_ok_iff.mp h
  obtain ⟨hmask11, hmask8⟩ := opcodeRows_mask_hp_op _ (row_mem_of_mem_formsAt hi)
  refine ⟨(eq_of_beq (encodesIntoRow i).1).trans (eq_of_beq hm).symm, fun hop hhp => ?_⟩
  rw [getLsbD_of_matches hm hmask8] at hop
  rw [getLsbD_of_matches hm hmask11] at hhp
  obtain ⟨hseq, hlow⟩ := encode_operands_of_mem_formsAt hi hop hhp
  exact and_0x03F_eq_of_operands hseq hlow

/-- Settles O5, by running the decoder on each word. -/
theorem specWordsDecodeToTheirForms : Obligations.SpecWordsDecodeToTheirForms := by
  unfold Obligations.SpecWordsDecodeToTheirForms
  decide

/-! ### The words the machine builds -/

theorem canOccur_restClass0 (h : Byte) : (dispatchWord 1 0b00 0 h).canOccur = true := by
  simp [canOccur_dispatchWord]

theorem canOccur_data {h : Byte} (hk : kindMux (extPt h) = .data) {rc : BitVec 2} (hrc : rc ≠ 0b11#2) :
    (dispatchWord 1 rc 0 h).canOccur = true := by
  simp [canOccur_dispatchWord, isControlKind_of_data hk, hrc]

theorem restClass_ne_three (r : DecRoute) : restClass r ≠ 0b11#2 := by cases r <;> decide

theorem fetchWithHeader_canOccur {h : Byte} {rest : List Byte} {term : SrcTerm} {d : DWord}
    (hf : fetchWithHeader h rest term = .word d) : d.canOccur = true := by
  cases hk : kindMux (extPt h) with
  | control =>
    rw [fetchWithHeader_control hk] at hf
    cases hf
    exact canOccur_restClass0 h
  | data =>
    rw [fetchWithHeader_data hk] at hf
    cases term with
    | eos => cases hf; exact canOccur_data hk (restClass_ne_three _)
    | fail => cases hf; exact canOccur_restClass0 h
    | stall => cases hf

/-- Without a header, the word is the one of `DECODE.NOHDR` (R141), unless the source blocks for ever. -/
theorem fetchDecode_noHeader {s : State} (hv : s.work.hdr.valid = false) (hb : srcBytes s = [])
    (ht : s.src.term ≠ .stall) : fetchDecode s = .word (dispatchWord 0 0b00 0 0) := by
  cases h : s.src.term with
  | eos | fail => simp [fetchDecode, hv, hb, h, Op.code]
  | stall => exact absurd h ht

theorem fetchDecode_noHeader_stall {s : State} (hv : s.work.hdr.valid = false) (hb : srcBytes s = [])
    (ht : s.src.term = .stall) : fetchDecode s = .stalled := by
  simp [fetchDecode, hv, hb, ht]

theorem fetchDecode_taken {s : State} (hv : s.work.hdr.valid = true) :
    fetchDecode s = fetchWithHeader s.work.hdr.value (srcBytes s) s.src.term := by
  simp [fetchDecode, hv]

theorem fetchDecode_canOccur {s : State} {d : DWord} (hf : fetchDecode s = .word d) : d.canOccur = true := by
  cases hv : s.work.hdr.valid with
  | true => exact fetchWithHeader_canOccur (fetchDecode_taken hv ▸ hf)
  | false =>
    cases hb : srcBytes s with
    | cons h rest => exact fetchWithHeader_canOccur (fetchDecode_ahead ⟨hv, hb⟩ ▸ hf)
    | nil =>
      by_cases ht : s.src.term = .stall
      · rw [fetchDecode_noHeader_stall hv hb ht] at hf
        cases hf
      · rw [fetchDecode_noHeader hv hb ht] at hf
        cases hf
        decide

/-- The word of an ENCODE whose kind and payload are latched (R96). -/
theorem fetchEncode_holding {s : State} {k : BitVec 2} {p : List Byte} (hk : s.req.kind = .holding k)
    (hp : s.req.payload = .holding p) :
    fetchEncode s = .word (dispatchWord 1 (payloadClass (routeEnc p.length)) 1 (k ++ 0#6)) := by
  simp [fetchEncode, hk, hp, Op.code]

theorem canOccur_payloadClass (r : EncRoute) (b : Byte) : (dispatchWord 1 (payloadClass r) 1 b).canOccur = true := by
  cases r <;> simp [canOccur_dispatchWord, payloadClass]

theorem fetchEncode_canOccur {s : State} {d : DWord} (hf : fetchEncode s = .word d) : d.canOccur = true := by
  unfold fetchEncode at hf
  split_ifs at hf
  cases hf
  exact canOccur_payloadClass _ _

theorem fetch_canOccur {s : State} {d : DWord} (hf : fetch s = .word d) : d.canOccur = true := by
  unfold fetch at hf
  split at hf
  · split at hf
    · exact fetchDecode_canOccur hf
    · exact fetchEncode_canOccur hf
  · cases hf

/-- Settles O11: each word is built from fields that R96 allows together, and some row matches a word that can occur. -/
theorem everyBuiltWordHasItsForm : Obligations.EveryBuiltWordHasItsForm := by
  unfold Obligations.EveryBuiltWordHasItsForm
  intro s d hf
  have hd := fetch_canOccur hf
  exact ⟨hd, (exists_decode_iff d).mpr (exists_row_of_canOccur hd)⟩

/-- The path of a header octet, by its bit 7 (R81, R119). -/
theorem kindMux_of_bit7_set {h : Byte} (h7 : h.getLsbD 7 = true) : kindMux (extPt h) = .control := by
  rw [kindMux_eq, isControlKind_extPt, h7]; rfl

theorem kindMux_of_bit7_clear {h : Byte} (h7 : h.getLsbD 7 = false) : kindMux (extPt h) = .data := by
  rw [kindMux_eq, isControlKind_extPt, h7]; rfl

theorem routeDec_eq_long {n : Nat} (h : 2 ≤ n) : routeDec n = .long := by
  obtain ⟨m, rfl⟩ := Nat.exists_eq_add_of_le' h
  rfl

theorem routeEnc_eq_copy {p : List Byte} (h : p ≠ []) : routeEnc p.length = .copy := by
  obtain ⟨c, rest, rfl⟩ := List.exists_cons_of_ne_nil h
  rfl

/-- The word of a DECODE that starts at a data header, by how the source ends (R96). -/
theorem fetch_data_ahead {s : State} {h : Byte} {rest : List Byte} (ho : s.req.op = .holding .decode)
    (ha : HeaderAhead s h rest) (hk : kindMux (extPt h) = .data) :
    (s.src.term = .eos → fetch s = .word (dispatchWord 1 (restClass (routeDec rest.length)) 0 h)) ∧
    (s.src.term = .fail → fetch s = .word (dispatchWord 1 0b00 0 h)) ∧
    (s.src.term = .stall → fetch s = .stalled) := by
  rw [fetch_decode ho, fetchDecode_ahead ha, fetchWithHeader_data hk]
  refine ⟨fun ht => ?_, fun ht => ?_, fun ht => ?_⟩ <;> rw [ht]

/-- Settles O10: the header's path, the source's ending and the length class of the rest give the fields. -/
theorem dispatchWordIsBuiltFromRequestAndSource : Obligations.DispatchWordIsBuiltFromRequestAndSource := by
  unfold Obligations.DispatchWordIsBuiltFromRequestAndSource
  refine ⟨fun s h rest ho ha => ⟨fun h7 => ?_, fun h7 => ?_⟩, fun s ho hv hb => ⟨fun ht => ?_, fun ht => ?_⟩,
    fun s k p ho hk hp => ⟨fun hnil => ?_, fun hne => ?_⟩⟩
  · rw [fetch_decode ho, fetchDecode_ahead ha, fetchWithHeader_control (kindMux_of_bit7_set h7)]
  · obtain ⟨heos, hfail, hstall⟩ := fetch_data_ahead ho ha (kindMux_of_bit7_clear h7)
    refine ⟨fun ht hn => ?_, fun ht hn => ?_, fun ht hn => ?_, hfail, hstall⟩
    · rw [heos ht, hn]; rfl
    · rw [heos ht, hn]; rfl
    · rw [heos ht, routeDec_eq_long hn]; rfl
  · exact ⟨_, (fetch_decode ho).trans (fetchDecode_noHeader hv hb ht), by decide⟩
  · exact (fetch_decode ho).trans (fetchDecode_noHeader_stall hv hb ht)
  · rw [fetch_encode ho, fetchEncode_holding hk hp, hnil]; rfl
  · rw [fetch_encode ho, fetchEncode_holding hk hp, routeEnc_eq_copy hne]; rfl

/-! ### A step runs the form that its word decodes to -/

theorem runWithinLimit_word {s : State} {d : DWord} {i : Instr} (hf : fetch s = .word d) (hd : decode d = .ok i)
    (hfit : frameFits s = true) : runWithinLimit s = exec i s := by
  rw [runWithinLimit_fits hfit, runOperation_word hf hd]

/-- Settles O12: a host action that waits, and a quiet one, leave the step to the operation (R24, R214). -/
theorem stepRunsTheDecodedForm : Obligations.StepRunsTheDecodedForm := by
  unfold Obligations.StepRunsTheDecodedForm
  intro s d i hp hf hd hfit
  have hrun : runWithinLimit s = exec i s := runWithinLimit_word hf hd hfit
  refine ⟨fun hh => ?nothing, fun _ _ hh => ?_, fun _ _ _ hh => ?_, fun _ _ _ hh => ?_, fun _ _ hh => ?_,
    fun later hh => ?quiet⟩
  case nothing => rw [step_busy_nil hp hh, hrun]
  case quiet =>
    rw [step_busy hp, busyStep, hh]
    exact runWithinLimit_word (s := { s with host := later }) hf hd hfit
  all_goals rw [← hrun, step_busy hp, busyStep, hh]

/-- When the host's actions were held back by a quiet one, the step leaves them as they were. -/
theorem step_heldBack {s : State} {d : DWord} {i : Instr} {host : List HostEvent} (hp : s.phase = .busy)
    (hf : fetch s = .word d) (hd : decode d = .ok i) (hfit : frameFits s = true) (hh : s.host = heldBack host) :
    step s = exec i { s with host := host } := by
  obtain ⟨hnothing, -, -, -, -, hquiet⟩ := stepRunsTheDecodedForm s d i hp hf hd hfit
  cases host with
  | nil =>
    have hh : s.host = [] := hh
    rw [hnothing hh, ← hh]
  | cons e later => exact hquiet (e :: later) hh

/-! ### The placing of a word -/

/-- The word of a form has one of three shapes: no header, a DECODE with a header octet, an ENCODE (R96). -/
theorem encode_shape (i : Instr) :
    encode i = dispatchWord 0 0b00 0 0 ∨ (∃ rc h, encode i = dispatchWord 1 rc 0 h) ∨
    (∃ (rc k : BitVec 2), encode i = dispatchWord 1 rc 1 (k ++ 0#6)) := by
  cases i with
  | decodeNohdr => exact .inl rfl
  | decodeUcd q l | decodeNcd q l | decodeUdpNocont q l | decodeUdpShort q l | decodeUdpLong q l | decodeNdpNocont q l
  | decodeNdpShort q l | decodeNdpLong q l => exact .inr (.inl ⟨_, _, rfl⟩)
  | encodeUcd | encodeNcd | encodeUdpEmpty | encodeUdpPayload | encodeNdpEmpty | encodeNdpPayload =>
    exact .inr (.inr ⟨_, _, rfl⟩)

theorem decodeTableWord_encode (n : Nat) (i : Instr) : decodeTableWord n (encode i).toNat = some i := by
  rw [decodeTableWord, if_pos (encode i).isLt, BitVec.ofNat_toNat, BitVec.setWidth_eq, decode_encode]

/-- The state in which a DECODE word is placed: the request just accepted, on a source that presents the word. -/
def placedDecode (s : State) (d : DWord) : State :=
  acceptRequest decodeRequest { s with host := heldBack s.host, src := ⟨octetsPresenting d, 0, .eos⟩ }

/-- The state in which an ENCODE word is placed: a request that presents the word, just accepted, on a sink that answers. -/
def placedEncode (s : State) (d : DWord) : State :=
  acceptRequest (encodeRequest (tpduPresenting d)) { s with host := heldBack s.host, snk := { s.snk with answer := .ok } }

theorem placeWord_encode (s : State) (i : Instr) :
    placeWord s (encode i).toNat = if (encode i).getLsbD 8 then placedEncode s (encode i) else placedDecode s (encode i) := by
  simp only [placeWord, decodeTableWord_encode, BitVec.ofNat_toNat, BitVec.setWidth_eq, placedEncode, placedDecode]

@[simp] theorem srcBytes_placedDecode (s : State) (d : DWord) : srcBytes (placedDecode s d) = octetsPresenting d := rfl

/-- What makes a source present a word with a header (R96). -/
theorem octetsPresenting_control {h : Byte} {rc : BitVec 2} (hk : kindMux (extPt h) = .control) :
    octetsPresenting (dispatchWord 1 rc 0 h) = [h] := by
  simp only [octetsPresenting, dispatchWord_hp, dispatchWord_b, hk]
  rfl

theorem octetsPresenting_data {h : Byte} {rc : BitVec 2} (hk : kindMux (extPt h) = .data) :
    octetsPresenting (dispatchWord 1 rc 0 h) = h :: List.replicate rc.toNat 0 := by
  simp only [octetsPresenting, dispatchWord_hp, dispatchWord_rc, dispatchWord_b, hk]
  rfl

theorem rc_eq_zero_of_canOccur {h : Byte} {rc : BitVec 2} (hc : (dispatchWord 1 rc 0 h).canOccur = true)
    (hk : kindMux (extPt h) = .control) : rc = 0b00 := by
  simpa [canOccur_dispatchWord, isControlKind_of_control hk] using hc

theorem rc_ne_three_of_canOccur {h : Byte} {rc : BitVec 2} (hc : (dispatchWord 1 rc 0 h).canOccur = true)
    (hk : kindMux (extPt h) = .data) : rc ≠ 0b11#2 := by
  simpa [canOccur_dispatchWord, isControlKind_of_data hk] using hc

/-- As many octets as the length class says have that length class. -/
theorem restClass_routeDec_toNat : ∀ rc : BitVec 2, rc ≠ 0b11#2 → restClass (routeDec rc.toNat) = rc := by decide

theorem payloadClass_routeEnc_toNat : ∀ rc : BitVec 2, rc.getLsbD 1 = false → payloadClass (routeEnc rc.toNat) = rc := by
  decide

/-- A source that presents a word makes the block build that word. -/
theorem fetch_placedDecode_header (s : State) {h : Byte} {rc : BitVec 2}
    (hc : (dispatchWord 1 rc 0 h).canOccur = true) :
    fetch (placedDecode s (dispatchWord 1 rc 0 h)) = .word (dispatchWord 1 rc 0 h) := by
  cases hk : kindMux (extPt h) with
  | control =>
    have ha : HeaderAhead (placedDecode s (dispatchWord 1 rc 0 h)) h [] := ⟨rfl, octetsPresenting_control hk⟩
    rw [fetch_decode rfl, fetchDecode_ahead ha, fetchWithHeader_control hk, rc_eq_zero_of_canOccur hc hk]
  | data =>
    have ha : HeaderAhead (placedDecode s (dispatchWord 1 rc 0 h)) h (List.replicate rc.toNat 0) :=
      ⟨rfl, octetsPresenting_data hk⟩
    rw [(fetch_data_ahead rfl ha hk).1 rfl, List.length_replicate,
      restClass_routeDec_toNat rc (rc_ne_three_of_canOccur hc hk)]

/-- So does a request that presents one. -/
theorem fetch_placedEncode (s : State) {k rc : BitVec 2} (hc : (dispatchWord 1 rc 1 (k ++ 0#6)).canOccur = true) :
    fetch (placedEncode s (dispatchWord 1 rc 1 (k ++ 0#6))) = .word (dispatchWord 1 rc 1 (k ++ 0#6)) := by
  have hk : extPt (k ++ 0#6) = k := BitVec.extractLsb'_append_eq_left
  have hrc : rc.getLsbD 1 = false := by simpa [canOccur_dispatchWord] using hc
  rw [fetch_encode rfl, fetchEncode_holding rfl rfl]
  simp only [encodeRequest, tpduPresenting, dispatchWord_kind, dispatchWord_rc, List.length_replicate, hk,
    payloadClass_routeEnc_toNat rc hrc]

/-- The block builds the word that was placed. -/
theorem fetch_placeWord (s : State) (i : Instr) : fetch (placeWord s (encode i).toNat) = .word (encode i) := by
  have hc := (encodesIntoRow i).2
  rw [placeWord_encode]
  obtain e | ⟨rc, h, e⟩ | ⟨rc, k, e⟩ := encode_shape i <;> rw [e] at hc ⊢ <;> rw [dispatchWord_op]
  · rfl
  · exact fetch_placedDecode_header s hc
  · exact fetch_placedEncode s hc

/-- A placed source has at most 3 octets. -/
theorem octetsPresenting_encode_length (i : Instr) (hop : (encode i).getLsbD 8 = false) :
    (octetsPresenting (encode i)).length ≤ 3 := by
  have hc := (encodesIntoRow i).2
  obtain e | ⟨rc, h, e⟩ | ⟨rc, k, e⟩ := encode_shape i <;> rw [e] at hc hop ⊢
  · decide
  · cases hk : kindMux (extPt h) with
    | control =>
      rw [octetsPresenting_control hk, List.length_singleton]
      decide
    | data =>
      have hrc := rc_ne_three_of_canOccur hc hk
      simp only [octetsPresenting_data hk, List.length_cons, List.length_replicate]
      bv_omega
  · rw [dispatchWord_op] at hop
    exact absurd hop (by decide)

/-- A placed word is within a `MAX_FRAME` that admits 3 octets. -/
theorem frameFits_placeWord {s : State} (hl : withinLimit s.limits.maxFrame 3 = true) (i : Instr) :
    frameFits (placeWord s (encode i).toNat) = true := by
  rw [placeWord_encode]
  cases hop : (encode i).getLsbD 8 with
  | true => exact frameFits_encode rfl
  | false => exact frameFits_decode rfl rfl (withinLimit_mono hl (octetsPresenting_encode_length i hop))

theorem placeWord_phase (s : State) (i : Instr) : (placeWord s (encode i).toNat).phase = .busy := by
  rw [placeWord_encode]
  split <;> rfl

theorem placeWord_host (s : State) (i : Instr) : (placeWord s (encode i).toNat).host = heldBack s.host := by
  rw [placeWord_encode]
  split <;> rfl

/-- Settles O13: the placed word is the one built, and the quiet action before the host's own is all that the step uses up. -/
theorem placedWordRunsNext : Obligations.PlacedWordRunsNext := by
  unfold Obligations.PlacedWordRunsNext
  intro s _ i
  exact ⟨⟨encode i, fetch_placeWord s i, decode_encode i⟩, fun hl =>
    step_heldBack (placeWord_phase s i) (fetch_placeWord s i) (decode_encode i) (frameFits_placeWord hl i)
      (placeWord_host s i)⟩

/-! ### ENCODE_PADDED and the code tables -/

theorem packHeader_eq_append (k : BitVec 2) (q : BitVec 4) (l : BitVec 2) : packHeader k q l = k ++ q ++ l := by
  revert k q l; decide

theorem extSlo_packCont (lo : BitVec 2) (c : Byte) : extSlo (packCont lo c) = lo := by
  ext i hi
  interval_cases i <;> simp [extSlo, packCont]

theorem joinSc_scHi_scLo (sc : BitVec 4) : joinSc (scHi sc) (scLo sc) = sc := by
  revert sc; decide

/-- The frame of a data record with a payload (R175, R177). -/
theorem frameOf_payload {t : Tpdu} {c : Byte} {rest : List Byte} (hk : isControlKind t.kind = false)
    (hp : t.payload = c :: rest) :
    frameOf t = (t.kind ++ seqBits t ++ scHi t.sc) :: packCont (scLo t.sc) c :: rest := by
  simp [frameOf, kindMux_eq, hk, hp, packHeader_eq_append]

/-- Settles O51: the padding byte takes the place in the continuation byte, so the payload is the long frame's rest. -/
theorem paddedRecordKeepsItsPayload : Obligations.PaddedRecordKeepsItsPayload := by
  unfold Obligations.PaddedRecordKeepsItsPayload
  rintro ⟨kind, seq, ctl, sc, payload⟩ hk hne
  obtain ⟨p, rest, rfl⟩ := List.exists_cons_of_ne_nil hne
  let t : Tpdu := ⟨kind, seq, ctl, sc, 0x00 :: p :: rest⟩
  have hframe : frameOf t = (kind ++ seqBits t ++ scHi sc) :: packCont (scLo sc) 0 :: p :: rest := frameOf_payload hk rfl
  have hmux : kindMux (extPt (kind ++ seqBits t ++ scHi sc)) = .data := by rw [extPt_append, kindMux_eq, hk]; rfl
  have hdec := decodesTo_long (c := packCont (scLo sc) 0) (p := p) (rest := rest) hmux
  rw [extPt_append, extSeq_append, extLow2_append, extSlo_packCont, joinSc_scHi_scLo, ← hframe, seqBits,
    BitVec.toNat_ofNat] at hdec
  have hlen : (frameOf t).length = rest.length + 3 := by rw [hframe]; rfl
  exact ⟨frameOf t, encodesTo_frameOf t, by rw [hlen, List.length_cons]; omega, hlen ▸ hdec⟩

/-- Settles O52: each table is read off, and each kind is its code's kind. -/
theorem codeTablesFollowTheSpec : Obligations.CodeTablesFollowTheSpec := by
  unfold Obligations.CodeTablesFollowTheSpec
  exact ⟨by decide, by decide, by decide, fun k => by cases k <;> decide⟩

end Sys2Proof.Machine
end

section
/-! PROOFS of 40_fields.md: each field of a byte as shift and mask (R110 to R115), the packed bytes as their fields side by side
(R116, R118), the identities between the two (R123), and the tables of the multiplexer and the routers (R119 to R122). -/

namespace Sys2Proof.Machine

/-! ### The extractor's formulas -/

/-- A field of a word, widened to the word again, is the word shifted down to the field and masked to the field's width. -/
theorem setWidth_extractLsb'_eq_shift_and_mask {w : Nat} (x : BitVec w) (start len : Nat) :
    (x.extractLsb' start len).setWidth w = (x >>> start) &&& (BitVec.allOnes len).setWidth w := by
  ext i hi
  simp [Bool.and_comm]

theorem extP6_eq_mask (c : Byte) : extP6 c = c &&& 0x3F :=
  setWidth_extractLsb'_eq_shift_and_mask c 0 6

theorem extP6_top_zero (c : Byte) : (extP6 c).extractLsb' 6 2 = 0 := by
  rw [extP6_eq_mask, BitVec.extractLsb'_and]
  exact BitVec.and_zero

theorem joinSc_eq_shift_or (hi lo : BitVec 2) : joinSc hi lo = (hi.setWidth 4 <<< 2) ||| lo.setWidth 4 :=
  calc joinSc hi lo = (hi ++ lo).setWidth 4 := (BitVec.setWidth_eq _).symm
    _ = (hi.setWidth 4 <<< 2) ||| lo.setWidth 4 := BitVec.setWidth_append_eq_shiftLeft_setWidth_or

/-- Settles O1: every extractor takes a field of bits, and a field is shift and mask. -/
theorem extractorTakesFields : Obligations.ExtractorTakesFields := by
  unfold Obligations.ExtractorTakesFields
  intro h hi lo
  have field := setWidth_extractLsb'_eq_shift_and_mask h
  exact ⟨⟨field 6 2, rfl⟩, ⟨field 2 4, rfl⟩, ⟨field 0 2, rfl⟩, ⟨field 6 2, rfl⟩,
    ⟨extP6_eq_mask h, rfl, extP6_top_zero h⟩, joinSc_eq_shift_or hi lo, rfl⟩

/-! ### The packed bytes -/

/-- The header octet is the low bits of the packer's inputs, side by side (R81, R116). -/
theorem packHeader_eq_fields {a b c : Nat} (k : BitVec a) (s : BitVec b) (l : BitVec c) :
    packHeader k s l = k.setWidth 2 ++ s.setWidth 4 ++ l.setWidth 2 := by
  rw [packHeader_truncated, packHeader_eq_append]

/-- The continuation byte is the low half of the service code beside bits 5:0 of its input (R83, R118). -/
theorem packCont_eq_append (lo : BitVec 2) (c : Byte) : packCont lo c = lo ++ c.extractLsb' 0 6 := by
  have hlo : lo.setWidth 8 &&& 0b11#8 = lo.setWidth 8 := by revert lo; decide
  calc packCont lo c = (lo.setWidth 8 <<< 6) ||| (c &&& 0x3F) := by rw [packCont, hlo]; rfl
    _ = (lo.setWidth 8 <<< 6) ||| extP6 c := by rw [extP6_eq_mask]
    _ = (lo ++ c.extractLsb' 0 6).setWidth 8 := BitVec.setWidth_append_eq_shiftLeft_setWidth_or.symm
    _ = lo ++ c.extractLsb' 0 6 := BitVec.setWidth_eq _

/-- The number of two words side by side. -/
theorem toNat_append_eq_mul_add {m n : Nat} (x : BitVec m) (y : BitVec n) :
    (x ++ y).toNat = x.toNat * 2 ^ n + y.toNat := by
  rw [BitVec.toNat_append, ← Nat.shiftLeft_add_eq_or_of_lt y.isLt, Nat.shiftLeft_eq]

theorem packHeader_toNat {a b c : Nat} (k : BitVec a) (s : BitVec b) (l : BitVec c) :
    (packHeader k s l).toNat = k.toNat % 4 * 64 + s.toNat % 16 * 4 + l.toNat % 4 := by
  simp only [packHeader_eq_fields, toNat_append_eq_mul_add, BitVec.toNat_setWidth]
  omega

theorem packCont_toNat (lo : BitVec 2) (c : Byte) : (packCont lo c).toNat = lo.toNat * 64 + c.toNat % 64 := by
  rw [packCont_eq_append, toNat_append_eq_mul_add, BitVec.extractLsb'_toNat]
  rfl

theorem scHi_toNat (sc : BitVec 4) : (scHi sc).toNat = sc.toNat / 4 := by
  rw [scHi, BitVec.extractLsb'_toNat, Nat.shiftRight_eq_div_pow]
  omega

theorem scLo_toNat (sc : BitVec 4) : (scLo sc).toNat = sc.toNat % 4 :=
  BitVec.extractLsb'_toNat 0 2 sc

/-- Settles O2: the packed bytes are their fields side by side, read as numbers. -/
theorem packerMasksAndPlacesFields : Obligations.PackerMasksAndPlacesFields := by
  unfold Obligations.PackerMasksAndPlacesFields
  exact ⟨fun _ _ _ => packHeader_toNat, fun sc => ⟨scHi_toNat sc, scLo_toNat sc⟩, packCont_toNat⟩

/-! ### The extractor and the packer undo each other -/

theorem extP6_packCont (lo : BitVec 2) (c : Byte) : extP6 (packCont lo c) = c &&& 0x3F := by
  rw [extP6, packCont_eq_append, BitVec.extractLsb'_append_eq_right]
  exact extP6_eq_mask c

theorem packHeader_ext (h : Byte) : packHeader (extPt h) (extSeq h) (extLow2 h) = h := by
  rw [packHeader_eq_append, ← header_fields]

theorem packCont_extSlo (c : Byte) : packCont (extSlo c) c = c := by
  rw [packCont_eq_append]
  exact BitVec.extractLsb'_append_extractLsb'

/-- Settles O3: a field is read back from the fields it was put beside, and a byte is its own fields side by side. -/
theorem extractorInvertsPacker : Obligations.ExtractorInvertsPacker := by
  unfold Obligations.ExtractorInvertsPacker
  refine ⟨fun a b c k s l => ?_, fun lo c => ⟨extSlo_packCont lo c, extP6_packCont lo c⟩, packHeader_ext,
    packCont_extSlo, joinSc_scHi_scLo⟩
  rw [packHeader_eq_fields]
  exact ⟨extPt_append _ _ _, extSeq_append _ _ _, extLow2_append _ _ _⟩

/-! ### The multiplexer and the routers -/

/-- Bit 1 of the kind code is the path (R119). -/
theorem kindMux_eq_control_iff (k : BitVec 2) : kindMux k = .control ↔ k.getLsbD 1 = true := by
  rw [kindMux_eq, isControlKind]
  cases k.getLsbD 1 <;> decide

/-- Bit 0 of the kind code selects no path (R120): flipping it leaves bit 1. -/
theorem kindMux_xor_one (k : BitVec 2) : kindMux (k ^^^ 1) = kindMux k := by
  have hbit : isControlKind (k ^^^ 1) = isControlKind k := by simp [isControlKind]
  rw [kindMux_eq, kindMux_eq, hbit]

/-- R121's table: each outcome of the router of DECODE, at its lengths and no others. -/
theorem routeDec_iff (n : Nat) :
    (routeDec n = .tooShort ↔ n = 0) ∧ (routeDec n = .short ↔ n = 1) ∧ (routeDec n = .long ↔ 2 ≤ n) := by
  match n with
  | 0 => simp
  | 1 => simp
  | m + 2 => simp

/-- R122's table: each outcome of the router of ENCODE, at its lengths and no others. -/
theorem routeEnc_iff (n : Nat) : (routeEnc n = .empty ↔ n = 0) ∧ (routeEnc n = .copy ↔ 1 ≤ n) := by
  cases n <;> simp

/-- Settles O4: the multiplexer's table is read off, bit 1 alone decides it, and the routers go by the length's cases. -/
theorem multiplexerAndRoutersFollowTables : Obligations.MultiplexerAndRoutersFollowTables := by
  unfold Obligations.MultiplexerAndRoutersFollowTables
  exact ⟨by decide, fun k => ⟨kindMux_eq_control_iff k, kindMux_xor_one k⟩, routeDec_iff, routeEnc_iff⟩

end Sys2Proof.Machine
end

section
/-! PROOFS of 41_decode.md: the nine DECODE forms, from the word that the block builds to the whole next state (R141 to R151), the
rest-read that the data forms share (R145), the one octet of a control DECODE (R152), and what `RES_CONSUMED` counts (R153). -/

namespace Sys2Proof.Machine

/-- A form whose word the block builds is presented, and is what the operation's run runs. -/
theorem presents_and_exec {s t : State} {d : DWord} {i : Instr} (hf : fetch s = .word d) (hd : decode d = .ok i)
    (hrun : runOperation s = .next t) : Presents s i ∧ exec i s = .next t :=
  ⟨⟨d, hf, hd⟩, (runOperation_word hf hd).symm.trans hrun⟩

/-! ### No header octet -/

/-- `DECODE.NOHDR` is the header read alone: an octet there is a fault (R141). -/
theorem exec_decodeNohdr (s : State) : exec .decodeNohdr s = takeHeader s fun _ _ => .fault .headerPresent := rfl

theorem presents_decodeNohdr {s : State} (ho : s.req.op = .holding .decode) (hv : s.work.hdr.valid = false)
    (hb : srcBytes s = []) (ht : s.src.term ≠ .stall) : Presents s .decodeNohdr :=
  ⟨_, (fetch_decode ho).trans (fetchDecode_noHeader hv hb ht), decode_noHeader⟩

/-- Settles O23: the form is its header read, which ends by the source's terminator. -/
theorem decodeNohdrEndings : Obligations.DecodeNohdrEndings := by
  unfold Obligations.DecodeNohdrEndings
  intro s ho hv hb
  refine ⟨fun ht => ⟨presents_decodeNohdr ho hv hb (by simp [ht]), ?eos⟩,
    fun ht => ⟨presents_decodeNohdr ho hv hb (by simp [ht]), ?fail⟩,
    fun ht => ⟨(fetch_decode ho).trans (fetchDecode_noHeader_stall hv hb ht), ?stall⟩⟩
  case eos => rw [exec_decodeNohdr, takeHeader_eos hv hb ht]; rfl
  case fail => rw [exec_decodeNohdr, takeHeader_fail hv hb ht]; rfl
  case stall => rw [exec_decodeNohdr, takeHeader_stall hv hb ht]

/-! ### A control header -/

theorem decode_ucd {h : Byte} (hk : extPt h = 0b10#2) :
    decode (dispatchWord 1 0b00 0 h) = .ok (.decodeUcd (extSeq h) (extLow2 h)) := by rw [decode_restClass0, hk]; rfl

theorem decode_ncd {h : Byte} (hk : extPt h = 0b11#2) :
    decode (dispatchWord 1 0b00 0 h) = .ok (.decodeNcd (extSeq h) (extLow2 h)) := by rw [decode_restClass0, hk]; rfl

/-- The word of a DECODE that starts at a control header, whatever follows the header (R96, R152). -/
theorem fetch_control_ahead {s : State} {h : Byte} {rest : List Byte} (ho : s.req.op = .holding .decode)
    (ha : HeaderAhead s h rest) (hk : kindMux (extPt h) = .control) :
    fetch s = .word (dispatchWord 1 0b00 0 h) := by
  rw [fetch_decode ho, fetchDecode_ahead ha, fetchWithHeader_control hk]

/-- The form of a control header is presented, and ends with the header's record (R142). -/
theorem controlForm_result {s : State} {h : Byte} {rest : List Byte} {k : BitVec 2} {i : Instr}
    (ho : s.req.op = .holding .decode) (ha : HeaderAhead s h rest) (hk : extPt h = k) (hc : kindMux k = .control)
    (hd : decode (dispatchWord 1 0b00 0 h) = .ok i) :
    Presents s i ∧ exec i s = .next (endOperation (.decoded k (extSeq h) (extLow2 h) 0 [] 1) (afterHeader h s)) := by
  subst hk
  exact presents_and_exec (fetch_control_ahead ho ha hc) hd (runOperation_control ho ha hc)

/-- Settles O24: the word of each control kind decodes to the kind's form. -/
theorem decodeControlFormsResult : Obligations.DecodeControlFormsResult := by
  unfold Obligations.DecodeControlFormsResult
  intro s h rest ho ha
  exact ⟨fun hk => controlForm_result ho ha hk rfl (decode_ucd hk),
    fun hk => controlForm_result ho ha hk rfl (decode_ncd hk)⟩

/-- Settles O30: the run ends with the header's record alone, and its lemma asks nothing of the terminator. -/
theorem controlDecodeIgnoresRestOfSource : Obligations.ControlDecodeIgnoresRestOfSource := by
  unfold Obligations.ControlDecodeIgnoresRestOfSource
  intro s h rest term ho ha hk
  exact ⟨_, runOperation_control ho ha hk, rfl, rfl, srcBytes_afterHeader ha.2, rfl,
    runOperation_control (s := { s with src := { s.src with term := term } }) ho ha hk⟩

/-! ### A data header, by what follows it -/

/-- `i` is the form of a data header `h` with the header's operand bits: `udp` or `ndp`, by the header's kind (R97). -/
def IsFormOf (udp ndp : BitVec 4 → BitVec 2 → Instr) (h : Byte) (i : Instr) : Prop :=
  (extPt h = 0b00#2 ∧ i = udp (extSeq h) (extLow2 h)) ∨ (extPt h = 0b01#2 ∧ i = ndp (extSeq h) (extLow2 h))

theorem IsFormOf.kindMux {udp ndp : BitVec 4 → BitVec 2 → Instr} {h : Byte} {i : Instr} (hi : IsFormOf udp ndp h i) :
    kindMux (extPt h) = .data := by
  obtain ⟨hk, -⟩ | ⟨hk, -⟩ := hi <;> rw [hk] <;> rfl

theorem decode_nocont {h : Byte} {i : Instr} (hi : IsFormOf .decodeUdpNocont .decodeNdpNocont h i) :
    decode (dispatchWord 1 0b00 0 h) = .ok i := by
  obtain ⟨hk, rfl⟩ | ⟨hk, rfl⟩ := hi <;> rw [decode_restClass0, hk] <;> rfl

theorem decode_short {h : Byte} {i : Instr} (hi : IsFormOf .decodeUdpShort .decodeNdpShort h i) :
    decode (dispatchWord 1 0b01 0 h) = .ok i := by
  obtain ⟨hk, rfl⟩ | ⟨hk, rfl⟩ := hi <;> rw [decode_restClass1, hk] <;> rfl

theorem decode_long {h : Byte} {i : Instr} (hi : IsFormOf .decodeUdpLong .decodeNdpLong h i) :
    decode (dispatchWord 1 0b10 0 h) = .ok i := by
  obtain ⟨hk, rfl⟩ | ⟨hk, rfl⟩ := hi <;> rw [decode_restClass2, hk] <;> rfl

/-- Settles O25: `END` right after the header and a `FAIL` after any octets both build the word with `RC = 00`. -/
theorem decodeNocontFormsEndings : Obligations.DecodeNocontFormsEndings := by
  unfold Obligations.DecodeNocontFormsEndings
  intro s h rest ho ha i (hi : IsFormOf .decodeUdpNocont .decodeNdpNocont h i)
  have hk := hi.kindMux
  have hd := decode_nocont hi
  obtain ⟨heos, hfail, -⟩ := fetch_data_ahead ho ha hk
  refine ⟨fun ht hnil => ?_, fun ht => ?_⟩
  · subst hnil
    exact presents_and_exec (heos ht) hd (runOperation_nocont ho ha hk ht)
  · obtain ⟨n, hn, hrun⟩ := runOperation_restFail ho ha hk ht
    obtain ⟨hp, he⟩ := presents_and_exec (hfail ht) hd hrun
    exact ⟨hp, n, hn, he⟩

/-- Settles O26: one octet after the header builds the word with `RC = 01`. -/
theorem decodeShortFormsResult : Obligations.DecodeShortFormsResult := by
  unfold Obligations.DecodeShortFormsResult
  intro s h c ho ha ht i (hi : IsFormOf .decodeUdpShort .decodeNdpShort h i)
  have hk := hi.kindMux
  exact presents_and_exec ((fetch_data_ahead ho ha hk).1 ht) (decode_short hi) (runOperation_short ho ha hk ht)

/-- Settles O27: two or more octets after the header build the word with `RC = 10`. -/
theorem decodeLongFormsResult : Obligations.DecodeLongFormsResult := by
  unfold Obligations.DecodeLongFormsResult
  intro s h c p rest ho ha ht i (hi : IsFormOf .decodeUdpLong .decodeNdpLong h i)
  have hk := hi.kindMux
  have hpos : s.src.pos + (3 + rest.length) = s.src.pos + 1 + (rest.length + 2) := by omega
  rw [hpos, Nat.add_comm 3]
  exact presents_and_exec ((fetch_data_ahead ho ha hk).1 ht) (decode_long hi) (runOperation_long ho ha hk ht)

/-! ### The rest-read of the data forms -/

/-- What a data form does once its rest-read has delivered: if it answers, it ends the operation, and it leaves the source as it
is (R145). -/
def EndsAfterRest (k : List Byte → State → Result) : Prop :=
  ∀ r s t, k r s = .next t → srcBytes t = srcBytes s ∧ t.phase = .idle

/-- `f` is the header read, then the rest-read, and then something that ends the operation. -/
def ReadsRest (f : State → Result) : Prop :=
  ∃ k, EndsAfterRest k ∧ ∀ s, f s = takeHeader s fun _ s1 => takeRest s1 k

/-- A buffer read does not touch the source, so what ends after it ends after the rest-read. -/
theorem endsAfterRest_memRead {b : Buffer} {i : Nat} {k : List Byte → State → Byte → Result}
    (hk : ∀ c, EndsAfterRest fun r s => k r s c) : EndsAfterRest fun r s => memRead b i s (k r s) := by
  intro r s t h
  obtain ⟨c, -, -, h⟩ := memRead_next h
  exact hk c r s t h

theorem endsAfterRest_endOperation (res : List Byte → ResRegs) :
    EndsAfterRest fun r s => .next (endOperation (res r) s) := by
  intro r s t h
  cases h
  exact ⟨rfl, rfl⟩

theorem decodeNocont_readsRest : ReadsRest decodeNocont :=
  ⟨_, endsAfterRest_endOperation _, fun _ => rfl⟩

theorem decodeShort_readsRest (k : BitVec 2) (q : BitVec 4) (hi : BitVec 2) : ReadsRest (decodeShort k q hi) :=
  ⟨_, endsAfterRest_memRead fun _ => endsAfterRest_endOperation _, fun _ => rfl⟩

theorem decodeLong_readsRest (k : BitVec 2) (q : BitVec 4) (hi : BitVec 2) : ReadsRest (decodeLong k q hi) :=
  ⟨_, endsAfterRest_memRead fun _ => endsAfterRest_endOperation _, fun _ => rfl⟩

/-- Every data form reads the rest. -/
theorem exec_readsRest (q : BitVec 4) (l : BitVec 2) :
    ∀ i ∈ [Instr.decodeUdpNocont q l, .decodeUdpShort q l, .decodeUdpLong q l, .decodeNdpNocont q l,
           .decodeNdpShort q l, .decodeNdpLong q l], ReadsRest (exec i) := by
  simp only [List.forall_mem_cons]
  exact ⟨decodeNocont_readsRest, decodeShort_readsRest _ q l, decodeLong_readsRest _ q l, decodeNocont_readsRest,
    decodeShort_readsRest _ q l, decodeLong_readsRest _ q l, by simp⟩

/-- The state in which the rest-read after the header `h` goes on: every octet after it in `CBUF`, and none left in the source. -/
def afterRest (h : Byte) (rest : List Byte) (s : State) : State :=
  writeCbuf rest (advanceSrc rest.length (afterHeader h s))

section
variable {s : State} {h : Byte} {rest : List Byte} (ha : HeaderAhead s h rest)
include ha

theorem srcBytes_afterRest : srcBytes (afterRest h rest s) = [] := by
  rw [afterRest, srcBytes_writeCbuf, srcBytes_advanceSrc, srcBytes_afterHeader ha.2, List.drop_length]

theorem takeRest_afterHeader_eos (ht : s.src.term = .eos) (k : List Byte → State → Result) :
    takeRest (afterHeader h s) k = k rest (afterRest h rest s) := by
  rw [takeRest_eos (s := afterHeader h s) ht, srcBytes_afterHeader ha.2, afterRest]

/-- With `END`, a form that reads the rest and answers leaves none in the source, and has ended. -/
theorem ReadsRest.next_eos {f : State → Result} (hf : ReadsRest f) (ht : s.src.term = .eos) {t : State}
    (e : f s = .next t) : srcBytes t = [] ∧ t.phase = .idle := by
  obtain ⟨k, hk, he⟩ := hf
  rw [he, takeHeader_ahead ha, takeRest_afterHeader_eos ha ht] at e
  obtain ⟨hsrc, hp⟩ := hk _ _ _ e
  exact ⟨hsrc.trans (srcBytes_afterRest ha), hp⟩

end

/-- Settles O28, by how the source ends. -/
theorem dataFormsRestRead : Obligations.DataFormsRestRead := by
  unfold Obligations.DataFormsRestRead
  intro s h rest q l ha i hi
  have hf := exec_readsRest q l i hi
  have ⟨k, _, he⟩ := hf
  refine ⟨fun ht => ?fail, fun ht => ?stall,
    fun ht => ⟨⟨afterRest h rest s, rfl, rfl, srcBytes_afterRest ha, rfl, rfl, rfl, takeRest_afterHeader_eos ha ht⟩,
      fun t => hf.next_eos ha ht⟩⟩
  case fail =>
    obtain ⟨n, hn, hrun⟩ := dataForm_ahead_fail ha ht k
    refine ⟨_, (he s).trans hrun, rfl, rfl, rfl, ?_, ?_, ?_⟩ <;> simp <;> omega
  case stall => exact (he s).trans (dataForm_ahead_stall ha ht k)

/-! ### What the count counts -/

/-- Settles O31, by the ways a DECODE can go on: each that ends it has moved `SRC_POS` by the count it gives. -/
theorem consumedCountsTheOctetsTaken : Obligations.ConsumedCountsTheOctetsTaken := by
  unfold Obligations.ConsumedCountsTheOctetsTaken
  intro s t ho hv hrun hi hb
  cases runOperation_decode_next ho hv hrun with
  | truncated => exact ⟨0, rfl, rfl, by simp [Status.code]⟩
  | headerFailed => exact ⟨0, rfl, rfl, by simp [Status.code]⟩
  | headerStalled => rw [hb] at hi; cases hi
  | control h rest _ hk => exact ⟨1, rfl, rfl, by simp [ResRegs.decoded, Status.code, hk]⟩
  | restStalled => rw [afterHeader_phase, hb] at hi; cases hi
  | restFailed h rest n => exact ⟨1 + n, rfl, by simp; omega, by simp [Status.code]⟩
  | nocont => exact ⟨1, rfl, rfl, by simp [Status.code]⟩
  | short h c hsrc hk => exact ⟨2, rfl, rfl, by simp [ResRegs.decoded, Status.code, hk, hsrc]⟩
  | long h c p rest hsrc hk =>
    exact ⟨rest.length + 3, rfl, by simp; omega, by simp [ResRegs.decoded, Status.code, hk, hsrc]⟩

end Sys2Proof.Machine
end

section
/-! PROOFS of 42_encode.md: the six ENCODE forms, from the word that the block builds to the whole next state (R172 to R177), that no
ENCODE request is rejected (R180), the frame of a record (R181, R187), and what is left when DECODE and ENCODE follow one another
(R182 to R186). -/

namespace Sys2Proof.Machine

/-! ### The packed bytes of a frame, as the rules write them -/

/-- A 2-bit field, zero-extended to an octet, has no bits for the packer's mask to drop. -/
theorem setWidth_and_three (x : BitVec 2) : x.setWidth 8 &&& 0b11#8 = x.setWidth 8 := by
  revert x; decide

/-- The header octet is the kind's bits over the other two fields (R116). -/
theorem packHeader_eq_kind_or {b c : Nat} (k : BitVec 2) (q : BitVec b) (l : BitVec c) :
    packHeader k q l = (k.setWidth 8 <<< 6) ||| (((q.setWidth 8 &&& 15) <<< 2) ||| (l.setWidth 8 &&& 3)) := by
  rw [packHeader, setWidth_and_three, BitVec.or_assoc]
  rfl

/-- The header octet of a data frame: the upper half of the service code fits its field (R92, R117). -/
theorem packHeader_scHi {b : Nat} (k : BitVec 2) (q : BitVec b) (sc : BitVec 4) :
    packHeader k q (scHi sc) =
      (k.setWidth 8 <<< 6) ||| (((q.setWidth 8 &&& 15) <<< 2) ||| (sc.extractLsb' 2 2).setWidth 8) := by
  rw [packHeader_eq_kind_or]
  exact congrArg (fun hi => (k.setWidth 8 <<< 6) ||| (((q.setWidth 8 &&& 15) <<< 2) ||| hi)) (setWidth_and_three (scHi sc))

/-- The continuation byte: the lower half of the service code over bits 5:0 of the payload's first byte (R118). -/
theorem packCont_eq_or (lo : BitVec 2) (c : Byte) : packCont lo c = (lo.setWidth 8 <<< 6) ||| (c &&& 0x3F) := by
  rw [packCont, setWidth_and_three]
  rfl

/-- The synthetic continuation byte has six zeros (R174, R176). -/
theorem packCont_zero (lo : BitVec 2) : packCont lo 0 = lo.setWidth 8 <<< 6 :=
  (packCont_eq_or lo 0).trans BitVec.or_zero

/-- Bits 7:6 of the byte do not reach the continuation byte (R118). -/
theorem packCont_congr {b c : Byte} (h : b &&& 0x3F = c &&& 0x3F) (lo : BitVec 2) : packCont lo b = packCont lo c := by
  rw [packCont_eq_or, h, ← packCont_eq_or]

/-- `extSlo` keeps bits 7:6 of a byte, and the packer puts them back in their place. -/
theorem packCont_extSlo_eq_or (c p : Byte) : packCont (extSlo c) p = (c &&& 0xC0) ||| (p &&& 0x3F) := by
  have htop : (extSlo c).setWidth 8 <<< 6 = c &&& 0xC0 := by revert c; decide
  rw [packCont_eq_or, htop]

/-- The continuation byte of a short frame, from the two fields it decodes to. -/
theorem packCont_extSlo_extP6 (c : Byte) : packCont (extSlo c) (extP6 c) = c := by
  have hlow : extP6 c &&& 0x3F = c &&& 0x3F := by rw [extP6_eq_mask, BitVec.and_assoc]; rfl
  rw [packCont_congr hlow, packCont_extSlo]

theorem scHi_joinSc (hi lo : BitVec 2) : scHi (joinSc hi lo) = hi := BitVec.extractLsb'_append_eq_left

theorem scLo_joinSc (hi lo : BitVec 2) : scLo (joinSc hi lo) = lo := BitVec.extractLsb'_append_eq_right

/-! ### The six forms -/

/-- A form that comes to its sink write with `h` in `HDR` and `frame` in `OBUF` ends by the sink's answer (R170, R179). -/
theorem encodeRuns_of_sendFrame {i : Instr} {s : State} {h : Byte} {frame : List Byte}
    (he : exec i s = sendFrame (writeObuf frame (writeHdr h s))) : EncodeRuns i s h frame :=
  ⟨he, fun ha => he.trans (sendFrame_ok (s := writeHdr h s) frame ha),
    fun ha => he.trans (sendFrame_fail (s := writeHdr h s) frame ha)⟩

/-- The form that an ENCODE presents, from the word of its kind and its payload's length class (R96). -/
theorem presents_encodeForm {s : State} {k : BitVec 2} {p : List Byte} {i : Instr} (ho : s.req.op = .holding .encode)
    (hk : s.req.kind = .holding k) (hp : s.req.payload = .holding p)
    (hd : decode (dispatchWord 1 (payloadClass (routeEnc p.length)) 1 (k ++ 0#6)) = .ok i) : Presents s i :=
  ⟨_, (fetch_encode ho).trans (fetchEncode_holding hk hp), hd⟩

/-- A control row of ENCODE ignores the length class (R97). -/
theorem decode_encodeUcd (r : EncRoute) : decode (dispatchWord 1 (payloadClass r) 1 (0b10#2 ++ 0#6)) = .ok .encodeUcd := by
  cases r <;> decide

theorem decode_encodeNcd (r : EncRoute) : decode (dispatchWord 1 (payloadClass r) 1 (0b11#2 ++ 0#6)) = .ok .encodeNcd := by
  cases r <;> decide

/-- Settles O32: a control form is one sink write of its header octet. -/
theorem encodeControlFormsResult : Obligations.EncodeControlFormsResult := by
  unfold Obligations.EncodeControlFormsResult
  intro s q c ho hq hc hpv low
  have hp := Latch.eq_holding hpv
  have hucd : packHeader 0b10#2 q.bits c.bits = 0x80 ||| low := packHeader_eq_kind_or _ _ _
  have hncd : packHeader 0b11#2 q.bits c.bits = 0xC0 ||| low := packHeader_eq_kind_or _ _ _
  refine ⟨fun hk => ⟨presents_encodeForm ho hk hp (decode_encodeUcd _), ?ucd⟩,
    fun hk => ⟨presents_encodeForm ho hk hp (decode_encodeNcd _), ?ncd⟩⟩
  case ucd => exact hucd ▸ encodeRuns_of_sendFrame (encodeControl_latched _ hq hc)
  case ncd => exact hncd ▸ encodeRuns_of_sendFrame (encodeControl_latched _ hq hc)

/-- Settles O33: a form for an empty payload is one sink write of the header octet and the synthetic byte. -/
theorem encodeEmptyFormsResult : Obligations.EncodeEmptyFormsResult := by
  unfold Obligations.EncodeEmptyFormsResult
  intro s q sc ho hq hsc hp low c
  have hudp : packHeader 0b00#2 q.bits (scHi sc) = low := (packHeader_scHi _ _ _).trans BitVec.zero_or
  have hndp : packHeader 0b01#2 q.bits (scHi sc) = 0x40 ||| low := packHeader_scHi _ _ _
  have hc : packCont (scLo sc) 0 = c := packCont_zero _
  refine ⟨fun hk => ⟨presents_encodeForm ho hk hp (decode_payloadClass0 _), ?udp⟩,
    fun hk => ⟨presents_encodeForm ho hk hp (decode_payloadClass0 _), ?ndp⟩⟩
  case udp => exact hudp ▸ hc ▸ encodeRuns_of_sendFrame (encodeEmpty_latched _ hq hsc)
  case ndp => exact hndp ▸ hc ▸ encodeRuns_of_sendFrame (encodeEmpty_latched _ hq hsc)

/-- Settles O34: a form for a payload is one sink write of the header octet and the payload, its first byte packed. -/
theorem encodePayloadFormsResult : Obligations.EncodePayloadFormsResult := by
  unfold Obligations.EncodePayloadFormsResult
  intro s q sc p rest ho hq hsc hp low c
  have hudp : packHeader 0b00#2 q.bits (scHi sc) = low := (packHeader_scHi _ _ _).trans BitVec.zero_or
  have hndp : packHeader 0b01#2 q.bits (scHi sc) = 0x40 ||| low := packHeader_scHi _ _ _
  have hc : packCont (scLo sc) p = c := packCont_eq_or _ _
  refine ⟨fun hk => ⟨presents_encodeForm ho hk hp (decode_payloadClass1 _), ?udp⟩,
    fun hk => ⟨presents_encodeForm ho hk hp (decode_payloadClass1 _), ?ndp⟩⟩
  case udp => exact hudp ▸ hc ▸ encodeRuns_of_sendFrame (encodeCopy_latched _ hq hsc hp)
  case ndp => exact hndp ▸ hc ▸ encodeRuns_of_sendFrame (encodeCopy_latched _ hq hsc hp)

/-! ### No request is rejected -/

/-- The form that a latched ENCODE presents makes one sink write, of the frame of the latched record (R170, R180). -/
theorem exec_presented_encode {s : State} {i : Instr} (hl : s.req.latched) (ho : s.req.op = .holding .encode)
    (hi : Presents s i) :
    ∃ b f, frameOf (latchedTpdu s) = b :: f ∧ exec i s = sendFrame (writeObuf (b :: f) (writeHdr b s)) := by
  obtain ⟨d, hf, hd⟩ := hi
  obtain ⟨b, f, hframe, hrun⟩ := runOperation_encode hl ho
  exact ⟨b, f, hframe, (runOperation_word hf hd).symm.trans hrun⟩

/-- Settles O36: the presented form comes to its sink write, which the sink's answer alone decides. -/
theorem encodeRejectsNoRequest : Obligations.EncodeRejectsNoRequest := by
  unfold Obligations.EncodeRejectsNoRequest
  intro s hl ho
  obtain ⟨i, hi⟩ := presents_encode hl ho
  obtain ⟨b, f, hframe, hexec⟩ := exec_presented_encode hl ho hi
  obtain ⟨t, hsend, hcases⟩ := sendFrame_cases (b :: f) (writeHdr b s)
  refine ⟨i, t, b :: f, hi, hexec.trans hsend, hframe ▸ encodesTo_frameOf _, List.cons_ne_nil _ _, ?_⟩
  rw [writeHdr_snk] at hcases
  obtain ⟨ha, rfl⟩ | ⟨ha, rfl⟩ | ⟨ha, rfl⟩ := hcases <;> simp [ha, Status.code]

/-! ### The frame of a record -/

/-- The frame of a control record (R172, R173). -/
theorem frameOf_control {t : Tpdu} (hk : isControlKind t.kind = true) :
    frameOf t = [t.kind ++ seqBits t ++ ctlBits t] := by
  simp [frameOf, kindMux_eq, hk, packHeader_eq_append]

/-- The frame of a data record with an empty payload (R174, R176). -/
theorem frameOf_empty {t : Tpdu} (hk : isControlKind t.kind = false) (hp : t.payload = []) :
    frameOf t = [t.kind ++ seqBits t ++ scHi t.sc, packCont (scLo t.sc) 0] := by
  simp [frameOf, kindMux_eq, hk, hp, packHeader_eq_append]

/-- Settles O45, by the three shapes of a frame. -/
theorem frameLengthFollowsThePayload : Obligations.FrameLengthFollowsThePayload := by
  unfold Obligations.FrameLengthFollowsThePayload
  intro t
  refine ⟨frameOf t, encodesTo_frameOf t, fun hk => ?control, fun hk hp => ?empty, fun hk hne => ?payload⟩
  case control => rw [frameOf_control hk]; rfl
  case empty => rw [frameOf_empty hk hp]; rfl
  case payload =>
    obtain ⟨c, rest, hp⟩ := List.exists_cons_of_ne_nil hne
    rw [frameOf_payload hk hp, hp]
    simp only [List.length_cons]
    omega

theorem seqBits_congr {t u : Tpdu} (h : t.seq % 16 = u.seq % 16) : seqBits t = seqBits u :=
  BitVec.eq_of_toNat_eq h

theorem ctlBits_congr {t u : Tpdu} (h : t.ctl % 4 = u.ctl % 4) : ctlBits t = ctlBits u :=
  BitVec.eq_of_toNat_eq h

/-- The frame of a record is made of its used bits alone (R171, R178). -/
theorem frameOf_congr {t u : Tpdu} (h : t.sameUsedBits u) : frameOf t = frameOf u := by
  obtain ⟨hkind, hseq, hcontrol, hdata⟩ := h
  cases hk : isControlKind t.kind with
  | true => rw [frameOf_control hk, frameOf_control (hkind ▸ hk), hkind, seqBits_congr hseq, ctlBits_congr (hcontrol hk)]
  | false =>
    obtain ⟨hsc, hlen, htail, hhead⟩ := hdata hk
    cases hp : t.payload with
    | nil =>
      have hp' : u.payload = [] := by rw [hp] at hlen; exact List.eq_nil_of_length_eq_zero hlen.symm
      rw [frameOf_empty hk hp, frameOf_empty (hkind ▸ hk) hp', hkind, seqBits_congr hseq, hsc]
    | cons b rest =>
      obtain ⟨c, rest', hp'⟩ := List.exists_cons_of_length_eq_add_one (hlen.symm.trans (congrArg List.length hp))
      have hbits : b &&& 0x3F = c &&& 0x3F := by simpa [hp, hp'] using hhead
      have hrest : rest = rest' := by simpa [hp, hp'] using htail
      rw [frameOf_payload hk hp, frameOf_payload (hkind ▸ hk) hp', hkind, seqBits_congr hseq, hsc, packCont_congr hbits,
        hrest]

/-- Settles O44: a record has one frame, and it is made of the used bits. -/
theorem unusedBitsDoNotReachTheFrame : Obligations.UnusedBitsDoNotReachTheFrame := by
  unfold Obligations.UnusedBitsDoNotReachTheFrame
  intro t u frame hsame hframe
  rw [encodesTo_unique hframe, frameOf_congr hsame]
  exact encodesTo_frameOf u

/-! ### Decoding the frame of a record -/

section
variable (k : BitVec 2) (q : BitVec 4)

/-- A header octet built from a kind goes down that kind's path (R81, R119). -/
theorem kindMux_header (l : BitVec 2) : kindMux (extPt (k ++ q ++ l)) = if isControlKind k then .control else .data := by
  rw [extPt_append, kindMux_eq]

/-- A control frame, by the fields it was built from. -/
theorem decodesTo_controlFields (l : BitVec 2) (hk : isControlKind k = true) :
    DecodesTo [k ++ q ++ l] ⟨k, q.toNat, l.toNat, 0, []⟩ 1 := by
  have h := decodesTo_control (h := k ++ q ++ l) (by rw [kindMux_header, hk]; rfl)
  rwa [extPt_append, extSeq_append, extLow2_append] at h

/-- A short frame, by the fields it was built from: of the byte in it, bits 5:0 come back. -/
theorem decodesTo_shortFields (sc : BitVec 4) (c : Byte) (hk : isControlKind k = false) :
    DecodesTo [k ++ q ++ scHi sc, packCont (scLo sc) c] ⟨k, q.toNat, 0, sc, [c &&& 0x3F]⟩ 2 := by
  have h := decodesTo_short (h := k ++ q ++ scHi sc) (c := packCont (scLo sc) c) (by rw [kindMux_header, hk]; rfl)
  rwa [extPt_append, extSeq_append, extLow2_append, extSlo_packCont, joinSc_scHi_scLo, extP6_packCont] at h

/-- A long frame, by the fields it was built from: nothing of the byte in the continuation comes back. -/
theorem decodesTo_longFields (sc : BitVec 4) (c p : Byte) (rest : List Byte) (hk : isControlKind k = false) :
    DecodesTo ((k ++ q ++ scHi sc) :: packCont (scLo sc) c :: p :: rest) ⟨k, q.toNat, 0, sc, p :: rest⟩
      (rest.length + 3) := by
  have h := decodesTo_long (h := k ++ q ++ scHi sc) (c := packCont (scLo sc) c) (p := p) (rest := rest)
    (by rw [kindMux_header, hk]; rfl)
  rwa [extPt_append, extSeq_append, extLow2_append, extSlo_packCont, joinSc_scHi_scLo] at h

end

theorem seqBits_toNat (t : Tpdu) : (seqBits t).toNat = t.seq % 16 := BitVec.toNat_ofNat _ _

theorem ctlBits_toNat (t : Tpdu) : (ctlBits t).toNat = t.ctl % 4 := BitVec.toNat_ofNat _ _

/-! `norm` of R185, by the record's kind and the length of its payload. -/

theorem norm_control {t : Tpdu} (hk : isControlKind t.kind = true) : t.norm = ⟨t.kind, t.seq % 16, t.ctl % 4, 0, []⟩ := by
  simp [Tpdu.norm, hk]

theorem norm_empty {t : Tpdu} (hk : isControlKind t.kind = false) (hp : t.payload = []) :
    t.norm = ⟨t.kind, t.seq % 16, 0, t.sc, [0x00]⟩ := by
  simp [Tpdu.norm, hk, hp]

theorem norm_single {t : Tpdu} {b : Byte} (hk : isControlKind t.kind = false) (hp : t.payload = [b]) :
    t.norm = ⟨t.kind, t.seq % 16, 0, t.sc, [b &&& 0x3F]⟩ := by
  simp [Tpdu.norm, hk, hp]

theorem norm_long {t : Tpdu} {p r : Byte} {rest : List Byte} (hk : isControlKind t.kind = false)
    (hp : t.payload = p :: r :: rest) : t.norm = ⟨t.kind, t.seq % 16, 0, t.sc, r :: rest⟩ := by
  simp [Tpdu.norm, hk, hp]

/-- The frame of a record decodes to `norm` of the record, and is consumed whole (R185). -/
theorem decodesTo_norm (t : Tpdu) : DecodesTo (frameOf t) t.norm (frameOf t).length := by
  cases hk : isControlKind t.kind with
  | true =>
    rw [frameOf_control hk, norm_control hk, ← seqBits_toNat, ← ctlBits_toNat]
    exact decodesTo_controlFields _ _ _ hk
  | false =>
    match hp : t.payload with
    | [] =>
      rw [frameOf_empty hk hp, norm_empty hk hp, ← seqBits_toNat]
      exact decodesTo_shortFields _ _ _ 0 hk
    | [b] =>
      rw [frameOf_payload hk hp, norm_single hk hp, ← seqBits_toNat]
      exact decodesTo_shortFields _ _ _ b hk
    | p :: r :: rest =>
      rw [frameOf_payload hk hp, norm_long hk hp, ← seqBits_toNat]
      exact decodesTo_longFields _ _ _ p r rest hk

/-- Settles O46: the frame of the record is `frameOf`, by the three formats of a frame. -/
theorem decodeOfFrameIsNorm : Obligations.DecodeOfFrameIsNorm := by
  unfold Obligations.DecodeOfFrameIsNorm
  exact fun t => ⟨frameOf t, encodesTo_frameOf t, decodesTo_norm t⟩

/-! ### The records that come back -/

/-- What R41 asks of a control record. -/
theorem wf_control {t : Tpdu} (hwf : t.wf = true) (hk : isControlKind t.kind = true) :
    t.seq ≤ 15 ∧ t.ctl ≤ 3 ∧ t.sc = 0 ∧ t.payload = [] := by
  simp only [Tpdu.wf, Tpdu.fieldsInRange, Tpdu.controlInactiveZero, hk, Bool.and_eq_true, decide_eq_true_eq,
    Bool.not_true, Bool.false_or, List.isEmpty_iff] at hwf
  obtain ⟨⟨⟨⟨hseq, hctl⟩, hsc, hp⟩, -⟩, -⟩ := hwf
  exact ⟨hseq, hctl, hsc, hp⟩

/-- What R41 asks of a data record. -/
theorem wf_data {t : Tpdu} (hwf : t.wf = true) (hk : isControlKind t.kind = false) :
    t.seq ≤ 15 ∧ t.ctl = 0 ∧ ∀ b, t.payload = [b] → b.toNat ≤ 63 := by
  simp only [Tpdu.wf, Tpdu.fieldsInRange, Tpdu.dataInactiveZero, hk, Bool.and_eq_true, decide_eq_true_eq,
    Bool.false_or] at hwf
  obtain ⟨⟨⟨⟨hseq, -⟩, -⟩, hctl⟩, hshort⟩ := hwf
  exact ⟨hseq, hctl, fun b hp => by simpa [Tpdu.shortPayloadInRange, hp, hk] using hshort⟩

/-- A byte that fits in 6 bits is what bits 5:0 of it say. -/
theorem and_0x3F_of_le {b : Byte} (h : b.toNat ≤ 63) : b &&& 0x3F = b := by
  apply BitVec.eq_of_toNat_eq
  rw [BitVec.toNat_and]
  exact Nat.and_two_pow_sub_one_of_lt_two_pow (n := 6) (by omega)

/-- A well-formed control record is its own `norm` (R182). -/
theorem norm_of_wf_control {t : Tpdu} (hwf : t.wf = true) (hk : isControlKind t.kind = true) : t.norm = t := by
  obtain ⟨hseq, hctl, hsc, hp⟩ := wf_control hwf hk
  rw [norm_control hk, Nat.mod_eq_of_lt (by omega), Nat.mod_eq_of_lt (by omega), ← hsc, ← hp]

/-- A well-formed data record with at most one payload byte is its own `norm`, but for an empty payload (R183). -/
theorem norm_of_wf_short {t : Tpdu} (hwf : t.wf = true) (hk : isControlKind t.kind = false) (hlen : t.payload.length ≤ 1) :
    t.norm = { t with payload := if t.payload = [] then [0x00] else t.payload } := by
  obtain ⟨hseq, hctl, hbyte⟩ := wf_data hwf hk
  match hp : t.payload with
  | [] => rw [norm_empty hk hp, Nat.mod_eq_of_lt (by omega), ← hctl, if_pos rfl]
  | [b] =>
    rw [norm_single hk hp, Nat.mod_eq_of_lt (by omega), ← hctl, and_0x3F_of_le (hbyte b hp), if_neg (List.cons_ne_nil _ _)]
  | _ :: _ :: _ => simp [hp] at hlen

/-- Settles O47: the frame decodes to `norm` of the record, which is the record. -/
theorem controlRecordRoundTrips : Obligations.ControlRecordRoundTrips := by
  unfold Obligations.ControlRecordRoundTrips
  intro t hwf hk
  have hdec := decodesTo_norm t
  rw [norm_of_wf_control hwf hk, frameOf_control hk] at hdec
  exact ⟨_, frameOf_control hk ▸ encodesTo_frameOf t, hdec⟩

/-- Settles O48: the frame has 2 octets, and decodes to `norm` of the record. -/
theorem shortRecordRoundTrips : Obligations.ShortRecordRoundTrips := by
  unfold Obligations.ShortRecordRoundTrips
  intro t hwf hk hlen
  have hframe : (frameOf t).length = 2 := by
    match hp : t.payload with
    | [] => rw [frameOf_empty hk hp]; rfl
    | [b] => rw [frameOf_payload hk hp]; rfl
    | _ :: _ :: _ => simp [hp] at hlen
  have hdec := decodesTo_norm t
  rw [norm_of_wf_short hwf hk hlen, hframe] at hdec
  exact ⟨_, encodesTo_frameOf t, hdec⟩

/-- Settles O49: the first payload byte is no part of the record's `norm`. -/
theorem longRecordLosesItsFirstByte : Obligations.LongRecordLosesItsFirstByte := by
  unfold Obligations.LongRecordLosesItsFirstByte
  intro t p r rest hk hp
  have hframe : (frameOf t).length = 3 + rest.length := by
    rw [frameOf_payload hk hp]
    simp only [List.length_cons]
    omega
  have hdec := decodesTo_norm t
  rw [norm_long hk hp, hframe] at hdec
  exact ⟨_, encodesTo_frameOf t, hdec⟩

/-! ### Encoding a decoded frame -/

/-- A control header's record encodes to the header (R186). -/
theorem encodesTo_decodedControl {h : Byte} (hk : kindMux (extPt h) = .control) :
    EncodesTo ⟨extPt h, (extSeq h).toNat, (extLow2 h).toNat, 0, []⟩ [h] := by
  have he := encodesTo_frameOf ⟨extPt h, (extSeq h).toNat, (extLow2 h).toNat, 0, []⟩
  simpa [frameOf, hk, seqBits, ctlBits, packHeader_ext] using he

/-- The record of a data frame, with a payload, encodes to the frame's header, then the continuation's top bits over bits 5:0 of the
first payload byte, then the rest (R186). -/
theorem encodesTo_decodedData {h : Byte} (hk : kindMux (extPt h) = .data) (c p : Byte) (rest : List Byte) :
    EncodesTo ⟨extPt h, (extSeq h).toNat, 0, joinSc (extLow2 h) (extSlo c), p :: rest⟩
      (h :: packCont (extSlo c) p :: rest) := by
  have he := encodesTo_frameOf ⟨extPt h, (extSeq h).toNat, 0, joinSc (extLow2 h) (extSlo c), p :: rest⟩
  simpa [frameOf, hk, seqBits, scHi_joinSc, scLo_joinSc, packHeader_ext] using he

/-- Settles O50: each format of frame decodes to the fields of its octets, and ENCODE puts them side by side again. -/
theorem reencodingADecodedFrame : Obligations.ReencodingADecodedFrame := by
  unfold Obligations.ReencodingADecodedFrame
  refine ⟨fun h hk => ⟨_, decodesTo_control hk, encodesTo_decodedControl hk⟩,
    fun h c hk => ⟨_, decodesTo_short hk, ?short⟩,
    fun h c p rest hk => ⟨_, Nat.add_comm 3 _ ▸ decodesTo_long hk, ?long⟩⟩
  case short => simpa only [packCont_extSlo_extP6] using encodesTo_decodedData hk c (extP6 c) []
  case long => simpa only [packCont_extSlo_eq_or] using encodesTo_decodedData hk c p rest

end Sys2Proof.Machine
end

section
/-! PROOFS of 60_exceptions.md: the one status of an operation (R207), what an error leaves behind (R208), and that a step
stops only at what the host or another agent does, or at an input beyond a limit (R205, R70, D17). -/

namespace Sys2Proof.Machine

/-! ### One status, by the first cause -/

/-- A run has one next state, so the end of an operation is known by the registers it leaves. -/
theorem res_of_run {s t u : State} {r : ResRegs} (h : runOperation s = .next t)
    (e : runOperation s = .next (endOperation r u)) : t.res = r := by
  rw [h] at e
  cases e
  rfl

section
variable {s : State} (ho : s.req.op = .holding .decode) (hv : s.work.hdr.valid = false)
include ho hv

theorem runOperation_noHeader_eos (hb : srcBytes s = []) (ht : s.src.term = .eos) :
    runOperation s = .next (endOperation (.noRecord .truncatedInput 0) s) := by
  simpa [ht] using runOperation_nohdr ho hv hb

theorem runOperation_noHeader_fail (hb : srcBytes s = []) (ht : s.src.term = .fail) :
    runOperation s = .next (endOperation (.noRecord .ioFailure 0) s) := by
  simpa [ht] using runOperation_nohdr ho hv hb

/-- A data frame with an octet behind its header ends `OK`, short or long (R145). -/
theorem runOperation_data_ok {h c : Byte} {rest : List Byte} (hb : srcBytes s = h :: c :: rest)
    (hk : kindMux (extPt h) = .data) (ht : s.src.term = .eos) :
    ∃ q sc p n u, runOperation s = .next (endOperation (.decoded (extPt h) q 0 sc p n) u) := by
  cases rest with
  | nil => exact ⟨_, _, _, _, _, runOperation_short ho ⟨hv, hb⟩ hk ht⟩
  | cons p rest => exact ⟨_, _, _, _, _, runOperation_long ho ⟨hv, hb⟩ hk ht⟩

end

/-- Settles O37: the causes of R207 in the order of R140, each with the run it decides. -/
theorem firstCauseDecidesTheStatus : Obligations.FirstCauseDecidesTheStatus := by
  unfold Obligations.FirstCauseDecidesTheStatus
  refine ⟨fun s t ho hv _ hrun _ => ⟨fun hb ht => ?headerFail, fun hb ht => ?headerEnd, fun h rest hb =>
    ⟨fun hk => ?control, fun hk ht => ?restFail, fun hk ht hr => ?nocont, fun hk ht hr => ?data⟩⟩,
    fun s t hl ho hbusy hrun hidle => ?encode⟩
  case headerFail => rw [res_of_run hrun (runOperation_noHeader_fail ho hv hb ht)]; rfl
  case headerEnd => rw [res_of_run hrun (runOperation_noHeader_eos ho hv hb ht)]; rfl
  case control => rw [res_of_run hrun (runOperation_control ho ⟨hv, hb⟩ hk)]; rfl
  case restFail =>
    obtain ⟨n, -, e⟩ := runOperation_restFail ho ⟨hv, hb⟩ hk ht
    rw [res_of_run hrun e]; rfl
  case nocont =>
    subst hr
    rw [res_of_run hrun (runOperation_nocont ho ⟨hv, hb⟩ hk ht)]; rfl
  case data =>
    obtain ⟨c, rest, rfl⟩ := List.exists_cons_of_ne_nil hr
    obtain ⟨_, _, _, _, _, e⟩ := runOperation_data_ok ho hv hb hk ht
    rw [res_of_run hrun e]; rfl
  case encode =>
    obtain ⟨b, f, -, ⟨ha, rfl⟩ | ⟨ha, rfl⟩ | ⟨-, rfl⟩⟩ := runOperation_encode_next hl ho hrun
    · exact .inr ⟨ha, rfl⟩
    · exact .inl ⟨ha, rfl⟩
    · simp [hbusy] at hidle

/-! ### What an error leaves behind -/

/-- The ways an operation that runs on `s` raises an error, with the code it raises (R200 to R204). -/
inductive ErrorEnding (s : State) : BitVec 2 → State → Prop where
  | truncated : s.req.op = .holding .decode → ErrorEnding s 1 (endOperation (.noRecord .truncatedInput 0) s)
  | tooShort (h : Byte) : s.req.op = .holding .decode →
      ErrorEnding s 2 (endOperation (.noRecord .dataUnitTooShort 1) (afterHeader h s))
  | headerFailed : s.req.op = .holding .decode → srcBytes s = [] →
      ErrorEnding s 3 (endOperation (.noRecord .ioFailure 0) s)
  | restFailed (h : Byte) (rest : List Byte) (n : Nat) : s.req.op = .holding .decode → srcBytes s = h :: rest →
      n ≤ rest.length →
      ErrorEnding s 3 (endOperation (.noRecord .ioFailure (1 + n)) (countDraw (advanceSrc n (afterHeader h s))))
  | sinkFailed (b : Byte) : s.req.op = .holding .encode →
      ErrorEnding s 3 (endOperation (.noRecord .ioFailure 0) (writeHdr b s))

/-- A DECODE that starts without a status, and has one other than 0 then, raised an error. -/
theorem DecodeEnding.error {s t : State} {code : BitVec 2} (h : DecodeEnding s t) (ho : s.req.op = .holding .decode)
    (hs : s.res.status.valid = false) (hc : t.res.status = .holding code) (hne : code ≠ 0) : ErrorEnding s code t := by
  cases h with
  | truncated => cases hc; exact .truncated ho
  | headerFailed hb => cases hc; exact .headerFailed ho hb
  | restFailed h rest n hb _ _ hn => cases hc; exact .restFailed h rest n ho hb hn
  | nocont h => cases hc; exact .tooShort h ho
  | headerStalled | restStalled =>
    have hc : s.res.status = .holding code := hc
    simp [hc] at hs
  | control | short | long => exact absurd ((Latch.holding_inj _ _).mp hc).symm hne

/-- So did an ENCODE, whose only error is its sink's (R204). -/
theorem EncodeEnding.error {s t : State} {b : Byte} {f : List Byte} {code : BitVec 2} (h : EncodeEnding b f s t)
    (ho : s.req.op = .holding .encode) (hs : s.res.status.valid = false) (hc : t.res.status = .holding code)
    (hne : code ≠ 0) : ErrorEnding s code t := by
  obtain ⟨-, rfl⟩ | ⟨-, rfl⟩ | ⟨-, rfl⟩ := h
  · exact absurd ((Latch.holding_inj _ _).mp hc).symm hne
  · cases hc
    exact .sinkFailed b ho
  · have hc : s.res.status = .holding code := hc
    simp [hc] at hs

/-- The inversion lemma of an error: a BUSY state with the invariant has no status yet, so one other than 0 was raised. -/
theorem runOperation_error {s t : State} {code : BitVec 2} (hi : MachineInv s) (hb : s.phase = .busy)
    (hrun : runOperation s = .next t) (hc : t.res.status = .holding code) (hne : code ≠ 0) : ErrorEnding s code t := by
  obtain ⟨hs, -⟩ := hi.busyNoResult hb
  have hl := hi.busyRequest hb
  obtain ho | ho := op_cases hl
  · cases hv : s.work.hdr.valid with
    | false => exact (runOperation_decode_next ho hv hrun).error ho hs hc hne
    | true =>
      obtain ⟨-, -, hk, ht⟩ := hi.headerTaken hb (by simp [ho]) hv
      rw [runOperation_taken_stall ho hv hk ht] at hrun
      cases hrun
      simp [hc] at hs
  · obtain ⟨b, f, -, hend⟩ := runOperation_encode_next hl ho hrun
    exact hend.error ho hs hc hne

/-- The decoded record is somewhere exactly when one of its five registers holds a value (R33). -/
theorem recordSomewhere_iff {r : ResRegs} :
    r.recordSomewhere ↔ ∃ reg ∈ [ResultReg.kind, .seq, .ctl, .sc, .payload], r.holds reg = true := by
  simp [ResRegs.recordSomewhere, ResRegs.holds]

theorem holds_eq_false_of_noRecord {r : ResRegs} (h : ¬ r.recordSomewhere) :
    ∀ reg ∈ [ResultReg.kind, .seq, .ctl, .sc, .payload], r.holds reg = false := fun reg hreg =>
  Bool.eq_false_iff.mpr fun hv => h (recordSomewhere_iff.mpr ⟨reg, hreg, hv⟩)

/-- What every error leaves alone, and that no record is there after it (R208, R209). -/
theorem ErrorEnding.frame {s t : State} {code : BitVec 2} (h : ErrorEnding s code t) :
    t.phase = .idle ∧ ¬ t.res.recordSomewhere ∧ t.req = s.req ∧ t.src.octets = s.src.octets ∧
    t.src.term = s.src.term ∧ t.snk = s.snk := by
  cases h <;> exact ⟨rfl, noRecord_recordSomewhere _ _, rfl, rfl, rfl, rfl⟩

/-- Settles O38: what all errors share, then the count and the source position of each. -/
theorem errorLeavesStatusAndNoRecord : Obligations.ErrorLeavesStatusAndNoRecord := by
  unfold Obligations.ErrorLeavesStatusAndNoRecord
  intro s t code hi hb hrun hc hne
  have herr := runOperation_error hi hb hrun hc hne
  obtain ⟨hphase, hrec, hreq, hoctets, hterm, hsnk⟩ := herr.frame
  refine ⟨hphase, fun r hr => readResult_unreadable (readable_eq_false_of_holds (holds_eq_false_of_noRecord hrec r hr)),
    hrec, hreq, hoctets, hterm, hsnk, ?_⟩
  cases herr with
  | truncated ho => simp [ho]
  | tooShort h ho => simp [ho]
  | headerFailed ho hsrc => simp [ho, hsrc]
  | restFailed h rest n ho hsrc hn => simp [ho, hsrc]; omega
  | sinkFailed b ho => simp [ho]

/-! ### What can stop the machine -/

/-- The stops of a step on `s`, each with its cause: the host's read of a register that it cannot read (R33, R37), another agent's
access to the stream in use (R70), and an input beyond a limit (D17). -/
inductive Stops (s : State) : Result → Prop where
  | unreadable (r : ResultReg) (later : List HostEvent) : s.host = .readResult r :: later → readable r s = false →
      Stops s (.fault (.noValue (.result r)))
  | foreignSourceRead (n : Nat) (later : List HostEvent) : s.phase = .busy → s.req.op = .holding .decode →
      s.host = .takeFromSource n :: later → Stops s (.refused .foreignSourceRead)
  | foreignSinkWrite (bytes : List Byte) (later : List HostEvent) : s.phase = .busy → s.req.op = .holding .encode →
      s.host = .writeToSink bytes :: later → Stops s (.refused .foreignSinkWrite)
  | frameTooLong : s.phase = .busy → frameFits s = false → Stops s (.refused .frameTooLong)
  | payloadTooLong (r : Request) (later : List HostEvent) : s.phase = .idle → s.host = .request r :: later →
      requestFits s.limits r = false → Stops s (.refused .payloadTooLong)

/-- A step that is a read of a result register. -/
theorem step_readResult_nextOrStops {s : State} {r : ResultReg} {later : List HostEvent}
    (hh : s.host = .readResult r :: later) : (∃ t, step s = .next t) ∨ Stops s (step s) := by
  cases hr : readable r s with
  | true => exact .inl ⟨_, (step_readResult hh).trans (readResult_readable hr)⟩
  | false => rw [step_readResult_unreadable hh hr]; exact .inr (.unreadable r later hh hr)

/-- A step in IDLE. -/
theorem step_idle_nextOrStops {s : State} (hp : s.phase = .idle) : (∃ t, step s = .next t) ∨ Stops s (step s) := by
  cases hh : s.host with
  | nil => exact .inl ⟨_, step_idle_nil hp hh⟩
  | cons e later =>
    cases e with
    | request r =>
      cases hr : requestFits s.limits r with
      | true => exact .inl ⟨_, step_accepts hp hh hr⟩
      | false => rw [step_payloadTooLong hp hh hr]; exact .inr (.payloadTooLong r later hp hh hr)
    | readResult r => exact step_readResult_nextOrStops hh
    | quiet | attachSource _ _ | attachSink _ _ | sinkWillAnswer _ | takeFromSource _ | writeToSink _ | reset =>
      exact .inl ⟨_, step_idle_cons hp hh⟩

/-- A step in BUSY. The run of the operation itself always answers (`runOperation_answers`). -/
theorem step_busy_nextOrStops {s : State} (hi : MachineInv s) (hp : s.phase = .busy) :
    (∃ t, step s = .next t) ∨ Stops s (step s) := by
  have hop := op_cases (hi.busyRequest hp)
  obtain ⟨later, e⟩ | ⟨later, -, e⟩ | ⟨r, later, hh, -⟩ | ⟨n, later, hh, e⟩ | ⟨b, later, hh, e⟩ := busyStep_cases s
  · rw [step_busy hp, e]
    cases hf : frameFits s with
    | true =>
      rw [runWithinLimit_fits (s := { s with host := later }) hf]
      exact .inl (runOperation_answers (hi.withHost later) hp)
    | false =>
      rw [runWithinLimit_over (s := { s with host := later }) hf]
      exact .inr (.frameTooLong hp hf)
  · exact .inl ⟨_, (step_busy hp).trans e⟩
  · exact step_readResult_nextOrStops hh
  · rw [step_busy hp, e]
    obtain ho | ho := hop
    · rw [busyTakeFromSource_refused (s := { s with host := later }) ho]
      exact .inr (.foreignSourceRead n later hp ho hh)
    · exact .inl ⟨_, busyTakeFromSource_drains (s := { s with host := later }) ho⟩
  · rw [step_busy hp, e]
    obtain ho | ho := hop
    · exact .inl ⟨_, busyWriteToSink_appends (s := { s with host := later }) ho⟩
    · rw [busyWriteToSink_refused (s := { s with host := later }) ho]
      exact .inr (.foreignSinkWrite b later hp ho hh)

/-- Everything a step from a state with the invariant can answer: a next state, or one of those stops. -/
theorem step_nextOrStops {s : State} (hi : MachineInv s) : (∃ t, step s = .next t) ∨ Stops s (step s) := by
  obtain hp | hp := s.phase.idle_or_busy
  · exact step_idle_nextOrStops hp
  · exact step_busy_nextOrStops hi hp

/-! ### The causes, as the statement words them -/

/-- In BUSY the only result register that can hold a value is the count of an ENCODE (R33, R34, R170). -/
theorem holds_busy {s : State} (hi : MachineInv s) (hb : s.phase = .busy) (r : ResultReg) :
    s.res.holds r = false ∨ (r = .consumed ∧ s.req.op.value = .encode) := by
  obtain ⟨hstatus, hrec⟩ := hi.busyNoResult hb
  have record := holds_eq_false_of_noRecord hrec
  cases r with
  | status => exact .inl hstatus
  | consumed =>
    cases hv : s.res.consumed.valid with
    | false => exact .inl hv
    | true => exact .inr ⟨rfl, (hi.busyCount hb hv).1⟩
  | kind | seq | ctl | sc | payload => exact .inl (record _ (by simp))

/-- A register that the host cannot read holds no value, or is the count of an ENCODE that has not ended (R37; log entry 11). -/
theorem unreadable_cause {s : State} {r : ResultReg} (hi : MachineInv s) (h : readable r s = false) :
    s.res.holds r = false ∨ (r = .consumed ∧ s.phase = .busy ∧ s.req.op.value = .encode) := by
  obtain hp | hp := s.phase.idle_or_busy
  · exact .inl (readable_idle hp ▸ h)
  · exact (holds_busy hi hp r).imp id fun ⟨hr, ho⟩ => ⟨hr, hp, ho⟩

/-- A length is beyond a limit only when the limit is given and below it (R6). -/
theorem over_of_withinLimit_eq_false {limit : Option Nat} {n : Nat} (h : withinLimit limit n = false) :
    ∃ m, limit = some m ∧ m < n := by
  cases limit with
  | none => cases h
  | some m => exact ⟨m, rfl, Nat.not_le.mp (of_decide_eq_false h)⟩

theorem over_of_requestFits_eq_false {l : LengthLimits} {r : Request} (h : requestFits l r = false) :
    r.op = .encode ∧ ∃ m, l.maxPayload = some m ∧ m < r.tpdu.payload.length := by
  unfold requestFits at h
  split at h
  · cases h
  · next ho => exact ⟨ho, over_of_withinLimit_eq_false h⟩

/-- Only a DECODE is beyond `MAX_FRAME`, and then what its source holds is, a taken header counted (R6, R60). -/
theorem over_of_frameFits_eq_false {s : State} (h : frameFits s = false) :
    s.req.op.value = .decode ∧
    ∃ m, s.limits.maxFrame = some m ∧ m < (if s.work.hdr.valid then 1 else 0) + (srcBytes s).length := by
  unfold frameFits at h
  split at h
  · cases h
  · next ho =>
    obtain ⟨m, hl, hm⟩ := over_of_withinLimit_eq_false h
    have hle := octetsDelivered_le (srcBytes s)
    refine ⟨ho, m, hl, ?_⟩
    split_ifs at hm ⊢ <;> omega

/-- Settles O39: a step stops only in one of the ways of `Stops`, and each has its cause. -/
theorem onlyTheHostCanStopTheMachine : Obligations.OnlyTheHostCanStopTheMachine := by
  unfold Obligations.OnlyTheHostCanStopTheMachine
  intro s hi
  refine ⟨fun f h => ?fault, fun why h => ?refused⟩ <;> obtain ⟨t, e⟩ | hstop := step_nextOrStops hi
  case fault.inl => rw [h] at e; cases e
  case refused.inl => rw [h] at e; cases e
  case fault.inr =>
    rw [h] at hstop
    cases hstop with
    | unreadable r later hh hr => exact ⟨r, later, hh, rfl, unreadable_cause hi hr⟩
  case refused.inr =>
    rw [h] at hstop
    cases hstop with
    | foreignSourceRead n later hp ho hh => exact .inl ⟨rfl, hp, by simp [ho], n, later, hh⟩
    | foreignSinkWrite bytes later hp ho hh => exact .inr (.inl ⟨rfl, hp, by simp [ho], bytes, later, hh⟩)
    | frameTooLong hp hf =>
      obtain ⟨ho, m, hl, hm⟩ := over_of_frameFits_eq_false hf
      exact .inr (.inr (.inl ⟨rfl, hp, ho, m, hl, hm⟩))
    | payloadTooLong r later hp hh hf =>
      obtain ⟨ho, m, hl, hm⟩ := over_of_requestFits_eq_false hf
      exact .inr (.inr (.inr ⟨rfl, hp, r, later, m, hh, ho, hl, hm⟩))

end Sys2Proof.Machine
end

section
/-! PROOFS of 70_reset_and_hazards.md: reset (R230, R231), what the host does between operations (R233, R238), operations that hang
on a stream (R237), and operations that end (R243). -/

namespace Sys2Proof.Machine

/-! ### An operation that hangs on a stream -/

/-- The DECODE in progress needs the terminator of a source that has none: it has taken its header, or there is no octet ahead, or a
data header is (R52, R53, R145, R237). -/
def DecodeWaits (s : State) : Prop :=
  s.req.op.value = .decode ∧ s.src.term = .stall ∧
    (s.work.hdr.valid = true ∨ srcBytes s = [] ∨ ∃ h rest, srcBytes s = h :: rest ∧ kindMux (extPt h) = .data)

/-- The ENCODE in progress has a sink that never answers (R54, R237). -/
def EncodeWaits (s : State) : Prop := s.req.op.value = .encode ∧ s.snk.answer = .stall

/-- While BUSY the latched operation is there to read (R25). -/
theorem MachineInv.op_holding {s : State} (hi : MachineInv s) (hb : s.phase = .busy) {op : Op} (ho : s.req.op.value = op) :
    s.req.op = .holding op :=
  ho ▸ Latch.eq_holding (hi.busyRequest hb).1

/-- A waiting DECODE takes at most its header. -/
theorem DecodeWaits.run {s : State} (hi : MachineInv s) (hb : s.phase = .busy) (hw : DecodeWaits s) :
    runOperation s = .next s ∨
    ∃ h rest, HeaderAhead s h rest ∧ kindMux (extPt h) = .data ∧ runOperation s = .next (afterHeader h s) := by
  obtain ⟨hd, ht, hcase⟩ := hw
  have ho := hi.op_holding hb hd
  cases hv : s.work.hdr.valid with
  | true =>
    obtain ⟨-, -, hk, -⟩ := hi.headerTaken hb hd hv
    exact .inl (runOperation_taken_stall ho hv hk ht)
  | false =>
    obtain hv' | hnil | ⟨h, rest, hs, hk⟩ := hcase
    · simp [hv] at hv'
    · exact .inl (by simpa [ht] using runOperation_nohdr ho hv hnil)
    · exact .inr ⟨h, rest, ⟨hv, hs⟩, hk, runOperation_restStall ho ⟨hv, hs⟩ hk ht⟩

/-- A waiting ENCODE builds its frame and writes its count, and gets no further (R170). -/
theorem EncodeWaits.run {s : State} (hi : MachineInv s) (hb : s.phase = .busy) (hw : EncodeWaits s) :
    ∃ b f, runOperation s = .next (writeConsumed 0 (writeObuf (b :: f) (writeHdr b s))) := by
  obtain ⟨he, ha⟩ := hw
  obtain ⟨b, f, -, hrun⟩ := runOperation_encode (hi.busyRequest hb) (hi.op_holding hb he)
  exact ⟨b, f, hrun.trans (sendFrame_stall (s := writeHdr b s) (b :: f) ha)⟩

/-- The operation in progress hangs, the host does nothing, and `MAX_FRAME` does not refuse it. -/
structure Hangs (s : State) : Prop where
  inv   : MachineInv s
  busy  : s.phase = .busy
  quiet : s.host = []
  fits  : frameFits s = true
  waits : DecodeWaits s ∨ EncodeWaits s

theorem Hangs.step_eq_run {s : State} (h : Hangs s) : step s = runOperation s := by
  rw [step_busy_nil h.busy h.quiet, runWithinLimit_fits h.fits]

/-- An operation that hangs still hangs after a step, and the sink is as it was. -/
theorem Hangs.step_hangs {s : State} (h : Hangs s) : ∃ t, step s = .next t ∧ Hangs t ∧ t.snk = s.snk := by
  rw [h.step_eq_run]
  obtain hw | hw := h.waits
  · obtain hrun | ⟨b, rest, ha, hk, hrun⟩ := hw.run h.inv h.busy
    · exact ⟨s, hrun, h, rfl⟩
    · obtain ⟨hd, ht, -⟩ := hw
      exact ⟨afterHeader b s, hrun,
        { inv := runOperation_inv h.inv h.busy hrun
          busy := h.busy
          quiet := h.quiet
          fits := (frameFits_afterHeader ha hk).trans h.fits
          waits := .inl ⟨hd, ht, .inl rfl⟩ }, rfl⟩
  · obtain ⟨b, f, hrun⟩ := hw.run h.inv h.busy
    exact ⟨_, hrun,
      { inv := runOperation_inv h.inv h.busy hrun
        busy := h.busy
        quiet := h.quiet
        fits := frameFits_encode (h.inv.op_holding h.busy hw.1)
        waits := .inr hw }, rfl⟩

/-- After any number of steps it hangs (R237). -/
theorem Hangs.runSteps_hangs {s : State} (h : Hangs s) (n : Nat) :
    ∃ t, runSteps n s = .next t ∧ Hangs t ∧ t.snk = s.snk := by
  induction n generalizing s with
  | zero => exact ⟨s, rfl, h, rfl⟩
  | succ n ih =>
    obtain ⟨u, hstep, hu, hsnk⟩ := h.step_hangs
    obtain ⟨t, hrun, ht, hsnk'⟩ := ih hu
    exact ⟨t, by simp only [runSteps, hstep, hrun], ht, hsnk'.trans hsnk⟩

/-- Settles O41, by induction on the number of steps; the invariant says that a BUSY block has no status and no record. -/
theorem stalledOperationNeverEnds : Obligations.StalledOperationNeverEnds := by
  unfold Obligations.StalledOperationNeverEnds
  intro s hi hb hh hf hw n
  obtain ⟨t, hrun, ht, hsnk⟩ := Hangs.runSteps_hangs ⟨hi, hb, hh, hf, hw⟩ n
  obtain ⟨hstatus, hrecord⟩ := ht.inv.busyNoResult ht.busy
  exact ⟨t, hrun, ht.busy, hstatus, hrecord, hsnk⟩

/-- Settles O53: the form that the request presents comes to its sink write, which does not end. -/
theorem encodeHangsAtItsSink : Obligations.EncodeHangsAtItsSink := by
  unfold Obligations.EncodeHangsAtItsSink
  intro s hl ho ha
  obtain ⟨i, hi⟩ := presents_encode hl ho
  obtain ⟨b, f, hframe, hexec⟩ := exec_presented_encode hl ho hi
  exact ⟨i, b, f, hi, hframe ▸ encodesTo_frameOf _, hexec.trans (sendFrame_stall (s := writeHdr b s) (b :: f) ha)⟩

/-! ### An operation that ends -/

/-- A DECODE on a source that has a terminator ends with a status. -/
theorem DecodeEnding.ends {s t : State} (h : DecodeEnding s t) (ht : s.src.term ≠ .stall) :
    t.phase = .idle ∧ t.res.status.valid = true := by
  cases h with
  | headerStalled _ hs | restStalled _ _ _ _ hs => exact absurd hs ht
  | truncated | headerFailed | control | restFailed | nocont | short | long => exact ⟨rfl, rfl⟩

/-- An ENCODE whose sink answers ends with a status. -/
theorem EncodeEnding.ends {s t : State} {b : Byte} {f : List Byte} (h : EncodeEnding b f s t) (ha : s.snk.answer ≠ .stall) :
    t.phase = .idle ∧ t.res.status.valid = true := by
  obtain ⟨-, rfl⟩ | ⟨-, rfl⟩ | ⟨hs, -⟩ := h
  · exact ⟨rfl, rfl⟩
  · exact ⟨rfl, rfl⟩
  · exact absurd hs ha

/-- The run of an operation whose streams respond ends it. A DECODE that has taken its header has no terminator to come. -/
theorem runOperation_ends {s t : State} (hi : MachineInv s) (hb : s.phase = .busy) (hrun : runOperation s = .next t)
    (ht : s.src.term ≠ .stall) (ha : s.snk.answer ≠ .stall) : t.phase = .idle ∧ t.res.status.valid = true := by
  have hl := hi.busyRequest hb
  obtain ho | ho := op_cases hl
  · cases hv : s.work.hdr.valid with
    | true =>
      obtain ⟨-, -, -, hs⟩ := hi.headerTaken hb (by simp [ho]) hv
      exact absurd hs ht
    | false => exact (runOperation_decode_next ho hv hrun).ends ht
  · obtain ⟨b, f, -, hend⟩ := runOperation_encode_next hl ho hrun
    exact hend.ends ha

/-- Settles O40: the step is the run of the operation, which answers and, on streams that respond, ends. -/
theorem operationEndsWhenStreamsRespond : Obligations.OperationEndsWhenStreamsRespond := by
  unfold Obligations.OperationEndsWhenStreamsRespond
  intro s hi hb hl hf
  obtain ⟨later, hstep⟩ := step_busy_letsRun hb hl
  have hi' := hi.withHost later
  obtain ⟨t, hrun⟩ := runOperation_answers hi' hb
  rw [hstep, runWithinLimit_fits (s := { s with host := later }) hf]
  exact ⟨t, hrun, runOperation_ends (s := { s with host := later }) hi' hb hrun⟩

/-! ### Reset -/

theorem step_busy_reset {s : State} {later : List HostEvent} (hp : s.phase = .busy) (hh : s.host = .reset :: later) :
    step s = .next (abandonOperation { s with host := later }) := by
  simp [step_busy hp, busyStep, hh]

/-- A reset is a reset of the block in either phase. In BUSY the abandonment of the operation comes before it, and only that touches
the streams (R230, R231). -/
theorem step_reset {s : State} {later : List HostEvent} (hh : s.host = .reset :: later) :
    ∃ u, step s = .next (resetBlock u) ∧ u.host = later ∧ (s.phase = .idle → u.src = s.src ∧ u.snk = s.snk) := by
  obtain hp | hp := s.phase.idle_or_busy
  · exact ⟨{ s with host := later }, step_idle_cons hp hh, rfl, fun _ => ⟨rfl, rfl⟩⟩
  · exact ⟨_, step_busy_reset hp hh, rfl, fun hidle => by simp [hp] at hidle⟩

/-- Settles O15: whatever state the block is reset from, no register is left with a value, so a read of a result faults. -/
theorem resetClearsTheBlock : Obligations.ResetClearsTheBlock := by
  unfold Obligations.ResetClearsTheBlock
  intro s later hh
  obtain ⟨u, hstep, hhost, hstreams⟩ := step_reset hh
  have hread (r : ResultReg) : readResult r (resetBlock u) = .fault (.noValue (.result r)) :=
    readResult_unreadable (readable_eq_false_of_holds (void_holds r))
  exact ⟨resetBlock u, hstep, rfl, hhost, ⟨rfl, rfl, rfl, rfl, rfl, rfl⟩, ⟨rfl, rfl, rfl⟩, hread, hstreams⟩

/-- The position drawn for an abandoned operation is in D8's range. -/
theorem abandonOperation_pos {s : State} (h : s.opStart ≤ s.src.octets.length) :
    s.opStart ≤ (abandonOperation s).src.pos ∧ (abandonOperation s).src.pos ≤ s.src.octets.length := by
  change s.opStart ≤ s.opStart + drawUpTo (s.src.octets.length - s.opStart) s ∧
    s.opStart + drawUpTo (s.src.octets.length - s.opStart) s ≤ s.src.octets.length
  have hdraw := drawUpTo_le (s.src.octets.length - s.opStart) s
  omega

theorem contentAfterAbandon_decode {s : State} (ho : s.req.op.value = .decode) :
    contentAfterAbandon s = s.snk.content := by
  simp [contentAfterAbandon, ho]

/-- The sink has the whole frame of an abandoned ENCODE or none of it (R54, R231). -/
theorem contentAfterAbandon_encode {s : State} (ho : s.req.op.value = .encode) :
    contentAfterAbandon s = s.snk.content ∨ contentAfterAbandon s = s.snk.content ++ frameOf (latchedTpdu s) := by
  simp only [contentAfterAbandon, ho]
  split
  · exact .inr rfl
  · exact .inl rfl

/-- Settles O16: the abandonment's two free values, in their ranges, before the reset of the block. -/
theorem resetInBusyAbandonsTheOperation : Obligations.ResetInBusyAbandonsTheOperation := by
  unfold Obligations.ResetInBusyAbandonsTheOperation
  intro s later hi hb hh
  obtain ⟨hstart, hend⟩ := abandonOperation_pos (s := { s with host := later }) ((hi.startBehindPos hb).trans hi.posInSource)
  refine ⟨_, step_busy_reset hb hh, rfl, rfl, rfl, rfl, rfl, rfl, rfl, hstart, hend, rfl,
    fun ho => contentAfterAbandon_decode (s := { s with host := later }) ho, fun ho => ?_⟩
  exact (contentAfterAbandon_encode (s := { s with host := later }) ho).imp id fun hc => ⟨_, encodesTo_frameOf _, hc⟩

/-! ### The host between operations -/

/-- Settles O18, by the host's next action. -/
theorem idleHostActsOnStreamsOnly : Obligations.IdleHostActsOnStreamsOnly := by
  unfold Obligations.IdleHostActsOnStreamsOnly
  intro s later hp
  refine ⟨fun hh => ?nothing, fun hh => ?quiet, fun octets term hh => ?attachSource, fun content answer hh => ?attachSink,
    fun answer hh => ?sinkWillAnswer, fun n hh => ?takeFromSource, fun bytes hh => ?writeToSink⟩
  case nothing => exact step_idle_nil hp hh
  case attachSource => exact ⟨_, step_idle_cons hp hh, rfl, rfl⟩
  case takeFromSource => exact ⟨_, step_idle_cons hp hh, srcBytes_takeFromSource n { s with host := later }, rfl⟩
  case quiet | attachSink | sinkWillAnswer | writeToSink => exact step_idle_cons hp hh

end Sys2Proof.Machine
end
